-- ==== Sys2Proof/Word.lean ====
section
/-! DEFINITION. The block's units of data: bytes and symbols of 8 bits (`SYM_BITS`), registers of 32 bits (`REG_BITS`), and bit
strings (`00_scope.md` R9, R12). -/

namespace Sys2Proof

/-- A byte of a buffer, and a symbol: `SYM_BITS` = 8 (R9). -/
abbrev Byte := BitVec 8

/-- A host-visible register, a command word, a stored frequency: 32 bits (R9). -/
abbrev Word := BitVec 32

/-- A bit string, its first element at the head (R12); `true` is the bit 1. -/
abbrev Bits := List Bool

end Sys2Proof
end

