-- ==== Sys2Proof/Syntax.lean ====
section
/-! DEFINITION. The commands of `spec/opcode_table.json`, one constructor per row. A command has no register and no immediate
field: its operands are `IN_LEN`, `IN` and the two size parameters (`30_encoding.md` R100). -/

namespace Sys2Proof

/-- The command words of `30_encoding.md` R101. Every other word is illegal (R102) and is no command: the step ends it with
`IllegalCommandError`. -/
inductive Instr where
  /-- `NOP`, word 0x00000000 (R141). -/
  | nop
  /-- `ENCODE`, word 0x00000001 (R142). -/
  | encode
  /-- `DECODE`, word 0x00000002 (R143). -/
  | decode
deriving DecidableEq, Repr

end Sys2Proof
end

