-- ==== Sys2Proof/WellFormed.lean ====
section
/-! DEFINITION. What a well-formed command word is: the two fields of format CMD32 and the check on each
(`30_encoding.md` R100, R102). A command itself has no field, so every `Instr` is well formed. -/

namespace Sys2Proof

/-- Field `OP` of CMD32, bits 7:0 (R100). -/
def commandOp (w : Word) : BitVec 8 := w.extractLsb' 0 8

/-- Field `MBZ` of CMD32, bits 31:8 (R100). -/
def commandMbz (w : Word) : BitVec 24 := w.extractLsb' 8 24

/-- A command word is well formed when `MBZ` is zero and `OP` is not one of 0x03..0xFF (R102). -/
def wellFormedWord (w : Word) : Bool := commandMbz w == 0 && decide ((commandOp w).toNat < 3)

/-- Every command is well formed: the format has no register and no immediate field to check (R100). -/
def WellFormed (_ : Instr) : Bool := true

end Sys2Proof
end

