-- ==== Sys2Proof/Decode.lean ====
section
/-! DEFINITION. The command decoder, total on 32-bit words and rejecting by name, and after it the encoder
(`30_encoding.md` R100 to R102). -/

namespace Sys2Proof

/-- Why a word is no command (R102); either way the block answers with `IllegalCommandError`. -/
inductive DecodeError where
  /-- `MBZ`, bits 31:8, is not zero. -/
  | mustBeZero
  /-- `MBZ` is zero and `OP` is in 0x03..0xFF. -/
  | illegalOp
deriving DecidableEq, Repr

/-- One row of the command table: the word is the command when its bits under `mask` are `pattern`. -/
structure CommandRow where
  mask : Word
  pattern : Word
  command : Instr
deriving DecidableEq, Repr

/-- The table of R101; the whole word is matched. -/
def commandTable : List CommandRow :=
  [⟨0xFFFFFFFF, 0x00000000, .nop⟩, ⟨0xFFFFFFFF, 0x00000001, .encode⟩, ⟨0xFFFFFFFF, 0x00000002, .decode⟩]

/-- The command a word stands for (R101), or why it is illegal (R102). -/
def decodeWord (w : Word) : Except DecodeError Instr :=
  match commandTable.find? (fun row => w &&& row.mask == row.pattern) with
  | some row => .ok row.command
  | none => if commandMbz w = 0 then .error .illegalOp else .error .mustBeZero

/-- The word of a command (R101). -/
def encode : Instr → Word
  | .nop => 0x00000000
  | .encode => 0x00000001
  | .decode => 0x00000002

/-- The decoder on a word numbered as `spec/opcode_table.json` numbers it: `nbits` of it given, the bits above zero. A command
is one 32-bit word, so a longer word is none. -/
def decodeTableWord (nbits w : Nat) : Option Instr :=
  if nbits ≤ 32 then
    match decodeWord (BitVec.ofNat 32 (w % 2 ^ nbits)) with
    | .ok i => some i
    | .error _ => none
  else none

end Sys2Proof
end

