-- ==== Sys2Proof/Machine/Engine.lean ====
section
/-! DEFINITION. The engine's internal state, `10_state.md` section 4 (R40 to R50, R54), at the widths given there (R53). The host
can read none of it, and each command writes every piece it reads before reading it (R51). -/

namespace Sys2Proof.Machine

/-- A pair `(s, f)` of the entry list `E`: symbol 8 bits, frequency 32 bits (R41). -/
structure Entry where
  sym : Byte
  freq : Word
deriving DecidableEq, Repr

/-- The `kind` bit of an arena node (R42). -/
inductive NodeKind where
  | leaf
  | internal
deriving DecidableEq, Repr

/-- One node of the arena `NODE` (R42); `left` and `right` are arena indices, meaningful for an internal node only, and `sym`
for a leaf only. -/
structure NodeRec where
  kind : NodeKind
  sym : Byte
  w : BitVec 40
  seq : BitVec 9
  left : BitVec 9
  right : BitVec 9
deriving DecidableEq, Repr

/-- The internal state of the engine. -/
structure Engine where
  /-- `FREQ[0..255]` (R40). -/
  freq : Vector Word 256
  /-- `E`, in seed order; its length is `L` (R41). -/
  entries : List Entry
  /-- `NODE`, node `i` at position `i` (R42). -/
  node : List NodeRec
  /-- `PQ`, arena indices (R43). -/
  pq : List (BitVec 9)
  /-- `ROOT` (R44). -/
  root : BitVec 9
  /-- `CLEN[0..255]` (R45). -/
  clen : Vector Byte 256
  /-- `CBITS[0..255]` (R45). -/
  cbits : Vector Bits 256
  /-- `BITBUF` (R46). -/
  bitbuf : Bits
  /-- `OPTR` (R47). -/
  optr : Word
  /-- `CURSOR` (R48). -/
  cursor : BitVec 9
  /-- `DCOUNT` (R49). -/
  dcount : BitVec 40
  /-- `IPTR` (R50). -/
  iptr : Word
  /-- `REM[0..255]` (R54). -/
  rem : Vector Word 256
deriving DecidableEq, Repr, Inhabited

/-- The internal state the model names for reset: zeros and empty lists. DESIGN CHOICE (log 7): the spec leaves it unspecified and
unobservable (R52). Unsafe for a claim about it. -/
def Engine.atReset : Engine where
  freq := Vector.replicate 256 0
  entries := []
  node := []
  pq := []
  root := 0
  clen := Vector.replicate 256 0
  cbits := Vector.replicate 256 []
  bitbuf := []
  optr := 0
  cursor := 0
  dcount := 0
  iptr := 0
  rem := Vector.replicate 256 0

end Sys2Proof.Machine
end

