-- ==== Sys2Proof/Config.lean ====
section
/-! DEFINITION. What an instance of the block fixes (`IN_SIZE`, `OUT_SIZE`, `ID_VALUE`) and the free values: what the spec leaves
open, as constants without a body, so that a statement holds for every value of them. -/

namespace Sys2Proof.Machine

/-- The constant of the `ID` register, "HUF1" (`10_state.md` R24). -/
def Config.idValue : Word := 0x48554631

/-- A free word that picks `IN_SIZE`. -/
opaque Config.inSizePick : Word

/-- A free word that picks `OUT_SIZE`. -/
opaque Config.outSizePick : Word

/-- The parameter `IN_SIZE`: any integer 1 .. 2^32-1 and no other (`00_scope.md` R9, R10; log 1). -/
def Config.inSize : Word := if Config.inSizePick = 0 then 1 else Config.inSizePick

/-- The parameter `OUT_SIZE`: any integer 1 .. 2^32-1 and no other (R9, R10; log 1). -/
def Config.outSize : Word := if Config.outSizePick = 0 then 1 else Config.outSizePick

/-- FREE VALUE (log 6): the byte a read of a byte with no defined value returns, at the read that consumes draw `k`
(`20_memory.md` R67, R69; `70_reset_and_hazards.md` R345). Nothing constrains it: safe for a claim about one run. -/
opaque Config.freeByte : Nat → Byte

/-- FREE VALUE (log 3): how many more steps the command accepted at draw `k` with word `v`, `IN_LEN` = `n` and `IN` holding `input` leaves
to the host before it completes (`70_reset_and_hazards.md` R350: finite, no bound, and it may depend on the input). Nothing constrains it.
DESIGN CHOICE: it depends on these four and nothing else, so two runs that agree in all four have equal latency (log 3: unsafe for a claim
that compares two such runs). -/
opaque Config.freeLatency (k : Nat) (v n : Word) (input : List (Nat × Byte)) : Nat

/-- FREE VALUE (log 8): the internal state an error leaves, at the error that consumes draw `k` (`60_exceptions.md` R311,
`10_state.md` R52). Nothing constrains it: safe for a claim about one run. -/
opaque Config.freeEngine : Nat → Engine

end Sys2Proof.Machine
end

