-- ==== Sys2Proof/Machine/State.lean ====
section
/-! DEFINITION. The state of the block: its registers, lines, buffers and internal state (`10_state.md`), the host's pending
transactions, and the model's own counters; the reasons a step stops; and the machine right after reset
(`70_reset_and_hazards.md` R341). -/

namespace Sys2Proof.Machine

/-- A buffer: the bytes that hold a defined value, addresses strictly rising (`Memory.wf`). A byte not listed holds no defined value
and each read of it is a draw (`20_memory.md` R67). -/
abbrev Memory := List Host.Cell

/-- `PHASE` (`10_state.md` R22). -/
inductive Phase where
  | idle
  | busy
deriving DecidableEq, Repr

/-- The three address spaces (`20_memory.md` R60). -/
inductive Space where
  | reg
  | inBuf
  | outBuf
deriving DecidableEq, Repr

/-- What the outside may do next: a bus transaction `space:dir:width:offset:data` (`30_encoding.md` R111), the `POLL` loop (R112), or a
level of the `rst` line (`70_reset_and_hazards.md` R340). Widths are in bytes. -/
inductive HostOp where
  | read (space : Space) (width offset : Nat)
  | write (space : Space) (width offset : Nat) (data : Word)
  | poll
  | rst (level : Bool)
deriving DecidableEq, Repr

/-- The eight errors of `60_exceptions.md` R301. -/
inductive CommandError where
  | emptyInput
  | malformedHeader
  | truncatedPayload
  | invalidResidualLength
  | treeReconstructionMismatch
  | inputRange
  | outputOverflow
  | illegalCommand
deriving DecidableEq, Repr

/-- The reasons the machine stops with a fault: none. No behaviour of the block is stuck (`93_implementation_defined.md` section 1); its
errors are next states (`60_exceptions.md` R311). Log 23: safe. -/
inductive Fault where
deriving DecidableEq, Repr

/-- The reasons a step has no meaning. Every one but `notModelled` is raised by the host transaction the spec refuses, never by a
command; all are safe (the model stops, log 22). -/
inductive Refusal where
  /-- Raised by an arm of `exec` whose command has no meaning yet; no arm is so now. Safe. -/
  | notModelled (mnemonic : String)
  /-- Raised by a `REG` access that is not an aligned 32-bit access at an offset up to 0x3C (`20_memory.md` R61). Safe. -/
  | regAccess (width offset : Nat)
  /-- Raised by an `IN` or `OUT` access that is not one byte below the size (`20_memory.md` R62). Safe. -/
  | bufferAccess (space : Space) (width offset : Nat)
  /-- Raised by a host write of `IN` while `PHASE = BUSY` (`70_reset_and_hazards.md` R344). Safe. -/
  | inWriteBusy (offset : Nat)
  /-- Raised by a host write of `OUT` while `PHASE = BUSY` (`70_reset_and_hazards.md` R345). Safe. -/
  | outWriteBusy (offset : Nat)
deriving DecidableEq, Repr

structure State where
  /-- The parameter `IN_SIZE`, read in `IN_SIZE_R` (R34); no step changes it. -/
  inSize : Word
  /-- The parameter `OUT_SIZE`, read in `OUT_SIZE_R` (R35); no step changes it. -/
  outSize : Word
  /-- The level of the `rst` input (`70_reset_and_hazards.md` R340). -/
  rst : Bool
  /-- `PHASE` (R22), seen as `STATUS.BUSY` (R27). -/
  phase : Phase
  /-- The accepted command word; meaningful while `phase` is `busy` (`40_commands.md` R140). -/
  command : Word
  /-- `CTRL.IE` (R25). -/
  ctrlIE : Bool
  /-- `STATUS.DONE` (R27). -/
  done : Bool
  /-- `STATUS.ERR` (R27). -/
  err : Bool
  /-- `STATUS.ERRCODE` (R27). -/
  errCode : BitVec 4
  /-- `IN_LEN` (R28). -/
  inLen : Word
  /-- `OUT_LEN` (R29). -/
  outLen : Word
  /-- The kept bits of `SYMS` (R30). -/
  syms : BitVec 9
  /-- `T`, read in `TOTAL_LO` and `TOTAL_HI` (R31, R32). -/
  total : BitVec 40
  /-- The kept bits of `RESID` (R33). -/
  resid : BitVec 4
  /-- `IN` (R38). -/
  inBuf : Memory
  /-- `OUT` (R39). -/
  outBuf : Memory
  /-- The internal state (R40 to R50, R54). -/
  engine : Engine
  /-- The model's own: the host's pending transactions, in its program order (log 2). -/
  host : List HostOp
  /-- The model's own: what the last read transaction put on the bus (log 11). -/
  rdata : Word
  /-- The model's own: how many more steps the running command leaves to the host (log 3). -/
  latency : Nat
  /-- The model's own: how many free values have been drawn (log 6). -/
  draws : Nat
deriving DecidableEq, Repr

/-- The machine right after reset (`70_reset_and_hazards.md` R340, R341). DESIGN CHOICE: `command` (log 12), `engine` (log 7) and the
model's own fields (logs 2, 3, 6, 11), for which the spec gives no value. -/
def State.reset : State where
  inSize := Config.inSize
  outSize := Config.outSize
  rst := false
  phase := .idle
  command := 0
  ctrlIE := false
  done := false
  err := false
  errCode := 0
  inLen := 0
  outLen := 0
  syms := 0
  total := 0
  resid := 0
  inBuf := []
  outBuf := []
  engine := Engine.atReset
  host := []
  rdata := 0
  latency := 0
  draws := 0

end Sys2Proof.Machine
end

