-- ==== Sys2Proof/Machine/Operands.lean ====
section
/-! DEFINITION. How operands are read: the register a bus offset names (`10_state.md` R23), which accesses are admitted
(`20_memory.md` R61, R62), and how bytes and bits are assembled (`00_scope.md` R13, R14; `30_encoding.md` R108). -/

namespace Sys2Proof.Machine

/-- The registers of `10_state.md` R23. -/
inductive Reg where
  | id
  | ctrl
  | cmd
  | status
  | inLen
  | outLen
  | syms
  | totalLo
  | totalHi
  | resid
  | inSizeR
  | outSizeR
  | reserved
deriving DecidableEq, Repr

/-- The register at a byte offset; none at an offset that is misaligned or above 0x3C (R23, R61). -/
def regAt : Nat → Option Reg
  | 0x00 => some .id
  | 0x04 => some .ctrl
  | 0x08 => some .cmd
  | 0x0C => some .status
  | 0x10 => some .inLen
  | 0x14 => some .outLen
  | 0x18 => some .syms
  | 0x1C => some .totalLo
  | 0x20 => some .totalHi
  | 0x24 => some .resid
  | 0x28 => some .inSizeR
  | 0x2C => some .outSizeR
  | 0x30 => some .reserved
  | 0x34 => some .reserved
  | 0x38 => some .reserved
  | 0x3C => some .reserved
  | _ => none

/-- The register a `REG` access of `width` bytes reaches, if the access is admitted (R61). -/
def regOperand (width offset : Nat) : Option Reg := if width = 4 then regAt offset else none

/-- Whether an access of `width` bytes to a buffer of `size` bytes is admitted: one byte, below the size (R62). -/
def byteAdmitted (size : Word) (width offset : Nat) : Bool := decide (width = 1) && decide (offset < size.toNat)

/-- `bits8(v)`: the bits of a byte, most significant first (R13). -/
def bits8 (v : Byte) : Bits :=
  [v.getLsbD 7, v.getLsbD 6, v.getLsbD 5, v.getLsbD 4, v.getLsbD 3, v.getLsbD 2, v.getLsbD 1, v.getLsbD 0]

/-- `byte(b)`: the byte whose bits, most significant first, are `b` (R13); used on strings of 8 bits. -/
def byteOfBits (b : Bits) : Byte := BitVec.ofNat 8 (b.foldl (fun v x => 2 * v + x.toNat) 0)

/-- `BE32(b0, b1, b2, b3)`: `b0`, at the lowest offset, is the most significant (R14). -/
def be32 (b0 b1 b2 b3 : Byte) : Word := b0 ++ b1 ++ b2 ++ b3

/-- `BE32enc(v)`: the four bytes of a word, most significant first (R14). -/
def be32enc (v : Word) : List Byte :=
  [v.extractLsb' 24 8, v.extractLsb' 16 8, v.extractLsb' 8 8, v.extractLsb' 0 8]

/-- The byte a 1-byte write carries: the low 8 bits of its data (DEDUCED, log 13). -/
def byteLane (data : Word) : Byte := data.setWidth 8

end Sys2Proof.Machine
end

