-- ==== Sys2Proof/Machine/Flags.lean ====
section
/-! DEFINITION. The `STATUS` word and the other registers as the host reads them, the error codes, and the `irq` line
(`10_state.md` R23 to R37, `60_exceptions.md` R301). -/

namespace Sys2Proof.Machine

/-- The value of `STATUS.ERRCODE` for each error (`60_exceptions.md` R301). -/
def CommandError.code : CommandError → BitVec 4
  | .emptyInput => 1
  | .malformedHeader => 2
  | .truncatedPayload => 3
  | .invalidResidualLength => 4
  | .treeReconstructionMismatch => 5
  | .inputRange => 6
  | .outputOverflow => 7
  | .illegalCommand => 8

/-- `STATUS.BUSY`: 1 while `PHASE = BUSY` (R27). -/
def State.busy (s : State) : Bool := s.phase == .busy

/-- The `CTRL` word: bit 0 is `IE`, the rest reads 0 (R25). -/
def ctrlWord (s : State) : Word := (BitVec.ofBool s.ctrlIE).setWidth 32

/-- The `STATUS` word: `ERRCODE` in bits 7:4, bit 3 zero, `ERR`, `DONE`, `BUSY` in bits 2, 1, 0, bits 31:8 zero (R27). -/
def statusWord (s : State) : Word :=
  (0 : BitVec 24) ++ s.errCode ++ (0 : BitVec 1) ++ BitVec.ofBool s.err ++ BitVec.ofBool s.done ++ BitVec.ofBool s.busy

/-- The interrupt output: `irq = CTRL.IE AND STATUS.DONE`, at every instant (R37). -/
def irq (s : State) : Bool := s.ctrlIE && s.done

/-- What a read of a register returns (R24 to R36). -/
def readReg (s : State) : Reg → Word
  | .id => Config.idValue
  | .ctrl => ctrlWord s
  | .cmd => 0
  | .status => statusWord s
  | .inLen => s.inLen
  | .outLen => s.outLen
  | .syms => s.syms.setWidth 32
  | .totalLo => s.total.extractLsb' 0 32
  | .totalHi => (s.total.extractLsb' 32 8).setWidth 32
  | .resid => s.resid.setWidth 32
  | .inSizeR => s.inSize
  | .outSizeR => s.outSize
  | .reserved => 0

end Sys2Proof.Machine
end

