-- ==== Sys2Proof/Machine/Ops.lean ====
section
/-! DEFINITION. The named operations over buffers and registers: reading and writing bytes, accepting a command, its two endings
(completion and ERROR ENTRY), the return from an error, and reset. -/

namespace Sys2Proof.Machine

/-! ### Buffers -/

/-- The canonical form of a buffer: addresses strictly rising. An unlisted address reads as no value, so no entry is redundant. -/
abbrev Memory.wf (m : Memory) : Prop := m.Pairwise (fun c d => c.1 < d.1)

/-- The defined byte at an address, or none where the byte holds no defined value (`20_memory.md` R67). -/
def Memory.read : Memory → Nat → Option Byte
  | [], _ => none
  | (x, b) :: m, a => if x = a then some b else Memory.read m a

/-- A one-byte store. -/
def Memory.write : Memory → Nat → Byte → Memory
  | [], a, b => [(a, b)]
  | (x, c) :: m, a, b =>
    if a < x then (a, b) :: (x, c) :: m
    else if a = x then (a, b) :: m
    else (x, c) :: Memory.write m a b

/-- `for a in base..: MemWrite(OUT, a, 1, bytes[a - base])` (`00_scope.md` R16). -/
def Memory.writeBytes : Memory → Nat → List Byte → Memory
  | m, _, [] => m
  | m, a, b :: bs => Memory.writeBytes (Memory.write m a b) (a + 1) bs

/-- What a read of a byte returns at draw `k`: its value, or the free value where it has none (R67). -/
def Memory.byteAt (m : Memory) (a k : Nat) : Byte := (Memory.read m a).getD (Config.freeByte k)

/-- `k` free values are drawn (log 6). -/
def State.drew (s : State) (k : Nat) : State := { s with draws := s.draws + k }

/-- `[MemRead(IN, a, 1) for a in 0..n-1]`: the bytes a command computes from (`20_memory.md` R68), each read with a draw of its own. -/
def inSnapshot (s : State) (n : Nat) : List Byte :=
  (List.range n).map (fun a => Memory.byteAt s.inBuf a (s.draws + a))

/-! ### The life of a command (`40_commands.md` R140, R145; `60_exceptions.md` R311, R313) -/

/-- The steps of acceptance that every accepted command takes: status and result registers cleared, `PHASE` BUSY (R140). -/
def State.beginCommand (s : State) : State :=
  { s with
    done := false, err := false, errCode := 0
    outLen := 0, syms := 0, total := 0, resid := 0
    phase := .busy }

/-- Acceptance of the command word `v` (R140). How many steps the command leaves to the host is a free value, an illegal word's too
(`70_reset_and_hazards.md` R350, logs 3 and 4). DESIGN CHOICE (log 3): of the count of draws, the word, `IN_LEN` and the contents of `IN`. -/
def State.accept (v : Word) (s : State) : State :=
  { s.beginCommand with command := v, latency := Config.freeLatency s.draws v s.inLen s.inBuf, draws := s.draws + 1 }

/-- `finish_ok` (R145). -/
def State.finishOk (s : State) : State := { s with phase := .idle, done := true }

/-- ERROR ENTRY, the one operation every `raise` takes: `finish_err` (R145) with the error's code, every byte of `OUT` without a defined
value (`20_memory.md` R69, log 9), the internal state unspecified (R311, log 8); nothing else changes. -/
def State.raise (e : CommandError) (s : State) : State :=
  { s with
    phase := .idle, err := true, errCode := e.code, done := true
    outBuf := [], engine := Config.freeEngine s.draws, draws := s.draws + 1 }

/-- RETURN FROM AN ERROR, and from a completion: the acknowledge (`10_state.md` R27, `60_exceptions.md` R313). -/
def State.acknowledge (s : State) : State := { s with done := false, err := false, errCode := 0 }

/-- Reset (`70_reset_and_hazards.md` R340): everything as in `State.reset` but the two parameters and what is not the block's (the
host's pending transactions, the value it last read, the count of draws; log 10). -/
def State.resetBlock (s : State) : State :=
  { State.reset with
    inSize := s.inSize, outSize := s.outSize
    host := s.host, rdata := s.rdata, draws := s.draws }

/-- The `rst` line takes a level: while it is high, and when it is released, the block is reset (R340). -/
def State.setRst (level : Bool) (s : State) : State :=
  if level || s.rst then { s.resetBlock with rst := level } else s

end Sys2Proof.Machine
end

