-- ==== Sys2Proof/Machine/Frequency.lean ====
section
/-! DEFINITION. Frequency analysis (`41_frequency_analysis.md`). -/

namespace Sys2Proof.Machine

/-- `FREQ[s]` after `FrequencyCount(data)`: how many bytes of `data` are `s`, each counted once (R170). -/
def frequencyOf (data : List Byte) (s : Byte) : Word := BitVec.ofNat 32 (data.count s)

/-- `FREQ[0..255]` (R40, R170). -/
def frequencyCount (data : List Byte) : Vector Word 256 :=
  Vector.ofFn (fun i => frequencyOf data (BitVec.ofNat 8 i.val))

/-- The symbols 0..255, ascending. -/
def allSymbols : List Byte := (List.range 256).map (BitVec.ofNat 8)

/-- `EntryList(FREQ)`: the symbols of nonzero count with their counts, in ascending symbol order (R171). -/
def entryList (freq : Byte → Word) : List Entry :=
  allSymbols.filterMap (fun s => if freq s = 0 then none else some ⟨s, freq s⟩)

/-- The sum of the frequencies of an entry list: `T` (`45_decoder.md` R252). -/
def totalCount (es : List Entry) : Nat := (es.map (fun e => e.freq.toNat)).sum

end Sys2Proof.Machine
end

