-- ==== Sys2Proof/Machine/Tree.lean ====
section
/-! DEFINITION. The tree builder (`42_tree_builder.md`). -/

namespace Sys2Proof.Machine

/-- A node of the tree, with its weight and sequence number (`00_scope.md` R17). -/
inductive Tree where
  | leaf (sym : Byte) (w seq : Nat)
  | node (w : Nat) (left right : Tree) (seq : Nat)
deriving DecidableEq, Repr

/-- `weight(n)` (R17). -/
def Tree.weight : Tree → Nat
  | .leaf _ w _ => w
  | .node w _ _ _ => w

/-- The sequence number of a node (R17). -/
def Tree.seq : Tree → Nat
  | .leaf _ _ q => q
  | .node _ _ _ q => q

/-- `key(a) < key(b)`, the lexicographic order on (weight, seq) (`00_scope.md` R18). -/
def keyLt (a b : Tree) : Bool :=
  decide (a.weight < b.weight) || (decide (a.weight = b.weight) && decide (a.seq < b.seq))

/-- `extract-min` on the queue holding `t` and `ts`: the node of least key and the rest (R18, R182). -/
def extractMin (t : Tree) : List Tree → Tree × List Tree
  | [] => (t, [])
  | u :: us =>
    let r := extractMin u us
    if keyLt t r.1 then (t, u :: us) else (r.1, t :: r.2)

/-- Seeding: one leaf per entry, in the order of `E`, numbered from `i` (R181). -/
def seeds : List Entry → Nat → List Tree
  | [], _ => []
  | e :: es, i => .leaf e.sym e.freq.toNat i :: seeds es (i + 1)

/-- The internal node that merges `a`, extracted first and the right child, with `b`, extracted second and the left child (R183). -/
def mergeNodes (a b : Tree) (seq : Nat) : Tree := .node (a.weight + b.weight) b a seq

/-- The merge loop on the queue holding `t` and `ts`, `k` merges to go, the next sequence number `seq` (R183). -/
def mergeLoop : Nat → Nat → Tree → List Tree → Tree
  | 0, _, t, _ => t
  | k + 1, seq, t, ts =>
    let a := extractMin t ts
    match a.2 with
    | [] => a.1
    | v :: vs =>
      let b := extractMin v vs
      mergeLoop k (seq + 1) (mergeNodes a.1 b.1 seq) b.2

/-- `BuildTree(E)` (R180 to R185): the loop runs L - 1 times (R184). The contract has L ≥ 1; the empty list, which no caller
passes, gives a placeholder leaf (log 24). -/
def buildTree (es : List Entry) : Tree :=
  match seeds es 0 with
  | [] => .leaf 0 0 0
  | t :: ts => mergeLoop ts.length es.length t ts

/-- A node's child: left on bit 0, right on bit 1 (`43_code_table.md` R200, `45_decoder.md` R255). A leaf has none and stands for
itself, which no rule reaches (log 24). -/
def Tree.child : Tree → Bool → Tree
  | .leaf s w q, _ => .leaf s w q
  | .node _ l r _, b => if b then r else l

/-- Every node of a tree. -/
def Tree.subtrees : Tree → List Tree
  | .leaf s w q => [.leaf s w q]
  | .node w l r q => .node w l r q :: (l.subtrees ++ r.subtrees)

/-- The symbols at the leaves, left to right. -/
def Tree.symbols : Tree → List Byte
  | .leaf s _ _ => [s]
  | .node _ l r _ => l.symbols ++ r.symbols

/-- A node as the arena holds it (`10_state.md` R42). -/
def Tree.record : Tree → NodeRec
  | .leaf s w q => ⟨.leaf, s, BitVec.ofNat 40 w, BitVec.ofNat 9 q, 0, 0⟩
  | .node w l r q => ⟨.internal, 0, BitVec.ofNat 40 w, BitVec.ofNat 9 q, BitVec.ofNat 9 l.seq, BitVec.ofNat 9 r.seq⟩

/-- The arena of a built tree: node `i` is the node whose sequence number is `i` (R42, R184). -/
def Tree.arena (t : Tree) : List NodeRec :=
  (List.range t.subtrees.length).filterMap (fun i => (t.subtrees.find? (fun n => n.seq == i)).map Tree.record)

end Sys2Proof.Machine
end

