-- ==== Sys2Proof/Machine/CodeTable.lean ====
section
/-! DEFINITION. The code table generator (`43_code_table.md`). -/

namespace Sys2Proof.Machine

/-- The code table: each symbol that has a code, with its code. -/
abbrev Codes := List (Byte × Bits)

/-- Every leaf's symbol with `p` followed by the leaf's path, left '0' and right '1' (R200). The order is not observable (R202). -/
def Tree.paths : Tree → Bits → Codes
  | .leaf s _ _, p => [(s, p)]
  | .node _ l r _, p => l.paths (p ++ [false]) ++ r.paths (p ++ [true])

/-- `CodeTable(root, L)`: the paths for L ≥ 2 (R200), and the one-bit code "0" for the single leaf of L = 1 (R201). -/
def codeTable : Tree → Codes
  | .leaf s _ _ => [(s, [false])]
  | .node w l r q => (Tree.node w l r q).paths []

/-- `CBITS[s]`, empty for a symbol with no code (`10_state.md` R45). -/
def codeOf : Codes → Byte → Bits
  | [], _ => []
  | (t, c) :: cs, s => if t = s then c else codeOf cs s

/-- `Bt`, the sum over `(s, f)` of `E` of `f * |C[s]|` (`40_commands.md` R142). -/
def codedBits (es : List Entry) (cs : Codes) : Nat :=
  (es.map (fun e => e.freq.toNat * (codeOf cs e.sym).length)).sum

/-- `S`, the codes of the source bytes in input order (`44_encoder_bitpacker.md` R223). -/
def symbolBits (cs : Codes) (data : List Byte) : Bits := data.flatMap (codeOf cs)

end Sys2Proof.Machine
end

