-- ==== Sys2Proof/Machine/BitPacker.lean ====
section
/-! DEFINITION. The encoder and bit-packer (`44_encoder_bitpacker.md`). -/

namespace Sys2Proof.Machine

/-- What the encoder has emitted (`OPTR` is its length) and its bit buffer `BITBUF` (`10_state.md` R46, R47). -/
structure Packer where
  out : List Byte
  buf : Bits
deriving DecidableEq, Repr

/-- Header emission: L, then each entry's symbol and frequency (R220). -/
def headerBytes (es : List Entry) : List Byte :=
  be32enc (BitVec.ofNat 32 es.length) ++ es.flatMap (fun e => e.sym :: be32enc e.freq)

/-- `AppendBit(b)`, with the flush threshold at least 8 (R222). -/
def appendBit (p : Packer) (b : Bool) : Packer :=
  let buf := p.buf ++ [b]
  if 8 ≤ buf.length then ⟨p.out ++ [byteOfBits (buf.take 8)], buf.drop 8⟩ else ⟨p.out, buf⟩

/-- The symbol stream: each source byte's code, bit by bit (R221). -/
def appendSymbols (cs : Codes) (data : List Byte) (p : Packer) : Packer :=
  data.foldl (fun q s => (codeOf cs s).foldl appendBit q) p

/-- The trailer: R = |BITBUF|, then the bits left-justified with zeros below (R224). -/
def trailerBytes (buf : Bits) : List Byte :=
  [BitVec.ofNat 8 buf.length, byteOfBits (buf ++ List.replicate (8 - buf.length) false)]

/-- The packer after the header and the symbol stream (R220, R221). -/
def packSymbols (es : List Entry) (cs : Codes) (data : List Byte) : Packer :=
  appendSymbols cs data ⟨headerBytes es, []⟩

/-- `PackContainer(E, C, data)` (R225). -/
def packContainer (es : List Entry) (cs : Codes) (data : List Byte) : List Byte :=
  (packSymbols es cs data).out ++ trailerBytes (packSymbols es cs data).buf

/-- `size = 4 + 5*L + floor(Bt/8) + 2` (`40_commands.md` R142). -/
def containerSize (l bt : Nat) : Nat := 4 + 5 * l + bt / 8 + 2

end Sys2Proof.Machine
end

