-- ==== Sys2Proof/Machine/Decoder.lean ====
section
/-! DEFINITION. The decoder (`45_decoder.md`): parsing the container, the meaningful bits, and the walk. -/

namespace Sys2Proof.Machine

/-- A parsed container: the entry list in stored order, the payload bytes, `R` and `F` (R250, R251). -/
structure Container where
  entries : List Entry
  payload : List Byte
  resid : Nat
  final : Byte
deriving DecidableEq, Repr

/-- The entry loop of `ParseContainer`, `n` entries to go, `es` those read: a zero frequency or a repeated symbol is a malformed
header (R250). Running out of bytes, which the length check before the loop rules out, is one too. -/
def parseEntries : Nat → List Byte → List Entry → Except CommandError (List Entry × List Byte)
  | 0, rest, es => .ok (es, rest)
  | n + 1, s :: b0 :: b1 :: b2 :: b3 :: rest, es =>
    if be32 b0 b1 b2 b3 = 0 then .error .malformedHeader
    else if es.any (fun e => e.sym == s) then .error .malformedHeader
    else parseEntries n rest (es ++ [⟨s, be32 b0 b1 b2 b3⟩])
  | _ + 1, _, _ => .error .malformedHeader

/-- The trailer check on the bytes after the header, at least two of them: `R` is the last but one, `F` the last (R250). -/
def parseTrailer (es : List Entry) (tail : List Byte) : Except CommandError Container :=
  let r := (tail.getD (tail.length - 2) 0).toNat
  if 8 < r then .error .invalidResidualLength
  else .ok ⟨es, tail.take (tail.length - 2), r, tail.getD (tail.length - 1) 0⟩

/-- `ParseContainer(c, N)` with `N` the length of `c`, its checks in the order of R250. -/
def parseContainer (c : List Byte) : Except CommandError Container :=
  match c with
  | l0 :: l1 :: l2 :: l3 :: rest =>
    let l := (be32 l0 l1 l2 l3).toNat
    if l = 0 then .error .malformedHeader
    else if 256 < l then .error .malformedHeader
    else if c.length < 4 + 5 * l then .error .malformedHeader
    else
      match parseEntries l rest [] with
      | .error e => .error e
      | .ok (es, tail) => if c.length < 4 + 5 * l + 2 then .error .truncatedPayload else parseTrailer es tail
  | _ => .error .malformedHeader

/-- `M`, the meaningful bits: every payload bit, then the first R bits of F (`30_encoding.md` R106). -/
def meaningfulBits (c : Container) : Bits := c.payload.flatMap bits8 ++ (bits8 c.final).take c.resid

/-- `CURSOR`, `REM`, `DCOUNT` and the symbols emitted so far (R255). For L = 1 the cursor stands at the root throughout and is no part of
the state `DECODE` leaves (R256 has no cursor, log 18). -/
structure WalkState where
  cursor : Tree
  rem : List (Byte × Nat)
  dcount : Nat
  out : List Byte
deriving DecidableEq, Repr

/-- `REM[s]` (`10_state.md` R54). -/
def remOf : List (Byte × Nat) → Byte → Nat
  | [], _ => 0
  | (t, k) :: m, s => if t = s then k else remOf m s

/-- `REM[s] <- REM[s] - 1`. -/
def remDec : List (Byte × Nat) → Byte → List (Byte × Nat)
  | [], _ => []
  | (t, k) :: m, s => if t = s then (t, k - 1) :: m else (t, k) :: remDec m s

/-- The walk before its first bit: `REM[E[i].s] <- E[i].f`, `CURSOR <- root`, `DCOUNT <- 0` (R255). -/
def walkStart (root : Tree) (es : List Entry) : WalkState :=
  ⟨root, es.map (fun e => (e.sym, e.freq.toNat)), 0, []⟩

/-- One bit of the walk for L ≥ 2: the excess check, the descent, and at a leaf the over-count check and the emission (R255). -/
def walkBitTree (root : Tree) (total : Nat) (w : WalkState) (b : Bool) : Except CommandError WalkState :=
  if w.dcount = total then .error .treeReconstructionMismatch
  else
    match w.cursor.child b with
    | .leaf s _ _ =>
      if remOf w.rem s = 0 then .error .treeReconstructionMismatch
      else .ok ⟨root, remDec w.rem s, w.dcount + 1, w.out ++ [s]⟩
    | .node v l r q => .ok { w with cursor := .node v l r q }

/-- One bit of the walk for L = 1: the excess check, no code starts with 1, the emission of the one symbol (R256),
whose `REM` counts down as at every emission (`10_state.md` R54). -/
def walkBitSingle (s : Byte) (total : Nat) (w : WalkState) (b : Bool) : Except CommandError WalkState :=
  if w.dcount = total then .error .treeReconstructionMismatch
  else if b then .error .treeReconstructionMismatch
  else .ok { w with rem := remDec w.rem s, dcount := w.dcount + 1, out := w.out ++ [s] }

/-- One bit of the walk; the root is a leaf exactly when L = 1 (`42_tree_builder.md` R184, R185). -/
def walkBit (root : Tree) (total : Nat) (w : WalkState) (b : Bool) : Except CommandError WalkState :=
  match root with
  | .leaf s _ _ => walkBitSingle s total w b
  | .node v l r q => walkBitTree (.node v l r q) total w b

/-- The loop over the bits of `M`: the first bit that raises ends it (R255, R256). -/
def walkBits (root : Tree) (total : Nat) : Bits → WalkState → Except CommandError WalkState
  | [], w => .ok w
  | b :: bs, w =>
    match walkBit root total w b with
    | .error e => .error e
    | .ok w' => walkBits root total bs w'

/-- `Walk(root, E, M, T)`: the loop, then the shortfall check (R255, R256, R258). -/
def walk (root : Tree) (es : List Entry) (m : Bits) (total : Nat) : Except CommandError WalkState :=
  match walkBits root total m (walkStart root es) with
  | .error e => .error e
  | .ok w => if w.dcount < total then .error .truncatedPayload else .ok w

end Sys2Proof.Machine
end

