-- ==== Sys2Proof/Machine/Commands.lean ====
section
/-! DEFINITION. The meanings of the commands (`40_commands.md`): `NOP`, `ENCODE`, `DECODE`, and of a word that is none. A meaning is the
whole command, from the steps of acceptance to its completion, with no host access between (`20_memory.md` R71; log 19). -/

namespace Sys2Proof.Machine

/-- The meaning of `NOP`: no effect (R141). -/
def execNop (s : State) : Host.Outcome State Fault Refusal := .next s

/-! ### ENCODE (R142) -/

/-- `E` for source bytes `data`. -/
def encodeEntries (data : List Byte) : List Entry := entryList (frequencyOf data)

/-- `root` for source bytes `data`. -/
def encodeTree (data : List Byte) : Tree := buildTree (encodeEntries data)

/-- `C` for source bytes `data`. -/
def encodeCodes (data : List Byte) : Codes := codeTable (encodeTree data)

/-- `Bt` for source bytes `data`. -/
def encodeBits (data : List Byte) : Nat := codedBits (encodeEntries data) (encodeCodes data)

/-- `size` for source bytes `data`. -/
def encodeSize (data : List Byte) : Nat := containerSize (encodeEntries data).length (encodeBits data)

/-- The container `ENCODE` writes for source bytes `data`. -/
def encodeContainer (data : List Byte) : List Byte := packContainer (encodeEntries data) (encodeCodes data) data

/-- The internal state `ENCODE` leaves after a success: what the pseudocode writes. What it does not write keeps its value, `CBITS` of a
symbol with no code among it (R200, R201 clear `CLEN` alone). DESIGN CHOICE (log 18): `IPTR` ends behind the last byte read. -/
def encodeEngine (data : List Byte) (g : Engine) : Engine :=
  let root := encodeTree data
  { g with
    freq := frequencyCount data
    entries := encodeEntries data
    node := root.arena
    pq := [BitVec.ofNat 9 root.seq]
    root := BitVec.ofNat 9 root.seq
    clen := Vector.ofFn (fun i => BitVec.ofNat 8 (codeOf (encodeCodes data) (BitVec.ofNat 8 i.val)).length)
    cbits := Vector.ofFn (fun i =>
      let code := codeOf (encodeCodes data) (BitVec.ofNat 8 i.val)
      if code.isEmpty then g.cbits[i] else code)
    bitbuf := (packSymbols (encodeEntries data) (encodeCodes data) data).buf
    optr := BitVec.ofNat 32 (encodeSize data)
    iptr := BitVec.ofNat 32 data.length }

/-- The writes of a successful `ENCODE` (R142). -/
def storeEncoding (data : List Byte) (s : State) : State :=
  { s with
    outBuf := Memory.writeBytes s.outBuf 0 (encodeContainer data)
    outLen := BitVec.ofNat 32 (encodeSize data)
    syms := BitVec.ofNat 9 (encodeEntries data).length
    total := BitVec.ofNat 40 data.length
    resid := BitVec.ofNat 4 (encodeBits data % 8)
    engine := encodeEngine data s.engine }

/-- The pseudocode of `ENCODE`, from `n <- REG[IN_LEN]` on (R142). -/
def runEncode (s : State) : State :=
  if s.inLen = 0 then s.raise .emptyInput
  else if s.inSize.toNat < s.inLen.toNat then s.raise .inputRange
  else
    let data := inSnapshot s s.inLen.toNat
    let s' := s.drew s.inLen.toNat
    if s.outSize.toNat < encodeSize data then s'.raise .outputOverflow
    else (storeEncoding data s').finishOk

/-- The meaning of `ENCODE` (R140, R142, R145). -/
def execEncode (s : State) : Host.Outcome State Fault Refusal := .next (runEncode s.beginCommand)

/-! ### DECODE (R143) -/

/-- `DECODE` of the container bytes `c` into an output buffer of `outSize` bytes: the parsed container and the end of the walk, or the
first error its rules reach (R143, `60_exceptions.md` R310). -/
def decodeContainer (outSize : Nat) (c : List Byte) : Except CommandError (Container × WalkState) :=
  match parseContainer c with
  | .error e => .error e
  | .ok k =>
    if outSize < totalCount k.entries then .error .outputOverflow
    else
      match walk (buildTree k.entries) k.entries (meaningfulBits k) (totalCount k.entries) with
      | .error e => .error e
      | .ok w => .ok (k, w)

/-- The internal state `DECODE` leaves after a success: what the pseudocode writes. What it does not write keeps its value: `REM` of a
symbol that is not in the header (R255 writes `REM[E[i].s]` alone), and `CURSOR` for L = 1 (R256 has none). DESIGN CHOICE (log 18): for
L = 1 `REM` of the one symbol counts down as R54 has it, though R256 does not write it, and `IPTR` ends behind the container. -/
def decodeEngine (k : Container) (w : WalkState) (n : Nat) (g : Engine) : Engine :=
  let root := buildTree k.entries
  { g with
    entries := k.entries
    node := root.arena
    pq := [BitVec.ofNat 9 root.seq]
    root := BitVec.ofNat 9 root.seq
    optr := BitVec.ofNat 32 w.out.length
    cursor := if k.entries.length = 1 then g.cursor else BitVec.ofNat 9 w.cursor.seq
    dcount := BitVec.ofNat 40 w.dcount
    iptr := BitVec.ofNat 32 n
    rem := Vector.ofFn (fun i =>
      let sym := BitVec.ofNat 8 i.val
      if sym ∈ k.entries.map Entry.sym then BitVec.ofNat 32 (remOf w.rem sym) else g.rem[i]) }

/-- The writes of a successful `DECODE` of `n` container bytes (R143, R261). -/
def storeDecoding (k : Container) (w : WalkState) (n : Nat) (s : State) : State :=
  { s with
    outBuf := Memory.writeBytes s.outBuf 0 w.out
    outLen := BitVec.ofNat 32 (totalCount k.entries)
    syms := BitVec.ofNat 9 k.entries.length
    total := BitVec.ofNat 40 (totalCount k.entries)
    resid := BitVec.ofNat 4 k.resid
    engine := decodeEngine k w n s.engine }

/-- The pseudocode of `DECODE`, from `N <- REG[IN_LEN]` on (R143). -/
def runDecode (s : State) : State :=
  if s.inSize.toNat < s.inLen.toNat then s.raise .inputRange
  else
    let s' := s.drew s.inLen.toNat
    match decodeContainer s.outSize.toNat (inSnapshot s s.inLen.toNat) with
    | .error e => s'.raise e
    | .ok (k, w) => (storeDecoding k w s.inLen.toNat s').finishOk

/-- The meaning of `DECODE` (R140, R143, R145). -/
def execDecode (s : State) : Host.Outcome State Fault Refusal := .next (runDecode s.beginCommand)

/-! ### A word that is no command (R144) -/

/-- What an accepted illegal word does: it raises `IllegalCommandError` right after the steps of acceptance (R144). -/
def execIllegal (s : State) : Host.Outcome State Fault Refusal := .next (s.beginCommand.raise .illegalCommand)

end Sys2Proof.Machine
end

