-- ==== Sys2Proof/Machine/HostPort.lean ====
section
/-! DEFINITION. What a host transaction does, what the engine's turn does, and how the two follow one another (`30_encoding.md` R111, R112;
`40_commands.md` R140, R146; `20_memory.md` section 4; `70_reset_and_hazards.md`). -/

namespace Sys2Proof.Machine

/-- A read transaction: it changes nothing but what the bus returned and the count of draws (`20_memory.md` R72). A read of `OUT`
while BUSY is a draw (`70_reset_and_hazards.md` R345). -/
def hostRead (space : Space) (width offset : Nat) (s : State) : Host.Outcome State Fault Refusal :=
  match space with
  | .reg =>
    match regOperand width offset with
    | some r => .next { s with rdata := readReg s r }
    | none => .refused (.regAccess width offset)
  | .inBuf =>
    if byteAdmitted s.inSize width offset then
      .next { s with rdata := (Memory.byteAt s.inBuf offset s.draws).setWidth 32, draws := s.draws + 1 }
    else .refused (.bufferAccess .inBuf width offset)
  | .outBuf =>
    if byteAdmitted s.outSize width offset then
      let b := if s.busy then Config.freeByte s.draws else Memory.byteAt s.outBuf offset s.draws
      .next { s with rdata := b.setWidth 32, draws := s.draws + 1 }
    else .refused (.bufferAccess .outBuf width offset)

/-- A write to `CMD`: ignored while BUSY (R146), `NOP` runs at once and is never accepted (R140, R141), every other word is accepted. -/
def writeCmd (v : Word) (s : State) : Host.Outcome State Fault Refusal :=
  if s.busy then .next s
  else
    match decodeWord v with
    | .ok .nop => exec .nop s
    | _ => .next (s.accept v)

/-- A write to a register (`10_state.md` R24 to R36): `CTRL` keeps bit 0 in either phase; `STATUS` acknowledges on bit 1 and `IN_LEN` is
stored, both only while IDLE; the read-only and reserved registers ignore it. -/
def writeReg (r : Reg) (v : Word) (s : State) : Host.Outcome State Fault Refusal :=
  match r with
  | .ctrl => .next { s with ctrlIE := v.getLsbD 0 }
  | .cmd => writeCmd v s
  | .status => .next (if !s.busy && v.getLsbD 1 then s.acknowledge else s)
  | .inLen => .next (if s.busy then s else { s with inLen := v })
  | .id | .outLen | .syms | .totalLo | .totalHi | .resid | .inSizeR | .outSizeR | .reserved => .next s

/-- A write transaction. A buffer write while BUSY is refused (`70_reset_and_hazards.md` R344, R345). While `rst` is high an admitted write
leaves no trace, since the block holds its reset values (R340, log 10). -/
def hostWrite (space : Space) (width offset : Nat) (data : Word) (s : State) : Host.Outcome State Fault Refusal :=
  match space with
  | .reg =>
    match regOperand width offset with
    | some r => if s.rst then .next s else writeReg r data s
    | none => .refused (.regAccess width offset)
  | .inBuf =>
    if byteAdmitted s.inSize width offset then
      if s.busy then .refused (.inWriteBusy offset)
      else if s.rst then .next s
      else .next { s with inBuf := Memory.write s.inBuf offset (byteLane data) }
    else .refused (.bufferAccess .inBuf width offset)
  | .outBuf =>
    if byteAdmitted s.outSize width offset then
      if s.busy then .refused (.outWriteBusy offset)
      else if s.rst then .next s
      else .next { s with outBuf := Memory.write s.outBuf offset (byteLane data) }
    else .refused (.bufferAccess .outBuf width offset)

/-- `POLL`: `RD STATUS`, repeated until the value read has bit 0 = 0 (R112). -/
def hostPoll (s : State) : State :=
  let s' := { s with rdata := statusWord s }
  if (statusWord s).getLsbD 0 then { s' with host := .poll :: s'.host } else s'

/-- One entry of the host's list, already taken off it. -/
def hostOp (op : HostOp) (s : State) : Host.Outcome State Fault Refusal :=
  match op with
  | .read space width offset => hostRead space width offset s
  | .write space width offset data => hostWrite space width offset data s
  | .poll => .next (hostPoll s)
  | .rst level => .next (s.setRst level)

/-- The host's turn: its oldest pending transaction, or nothing where none is pending (`60_exceptions.md` R322, log 20). -/
def hostTurn (s : State) : Host.Outcome State Fault Refusal :=
  match s.host with
  | [] => .next s
  | op :: rest => hostOp op { s with host := rest }

/-- The engine's turn: it runs the accepted command to its completion (R140, R145), or ends an illegal word (R144). -/
def engineTurn (s : State) : Host.Outcome State Fault Refusal :=
  match decodeWord s.command with
  | .ok i => exec i s
  | .error _ => execIllegal s

/-- One step of the block and its host. While a command runs the drawn latency counts the host's turns down, then the engine completes
the command; else it is the host's turn (`70_reset_and_hazards.md` R350, log 3). -/
def blockStep (s : State) : Host.Outcome State Fault Refusal :=
  match s.phase with
  | .idle => hostTurn s
  | .busy => if s.latency = 0 then engineTurn s else hostTurn { s with latency := s.latency - 1 }

/-- The state in which the very next step runs the command of word `v` (log 2): for `NOP`, which is never accepted, the host's next
transaction is the write of `v` to `CMD`; any other word stands as the accepted command that the engine is about to run. -/
def placeCommand (v : Word) (s : State) : State :=
  match decodeWord v with
  | .ok .nop => { s with rst := false, phase := .idle, host := .write .reg 4 0x08 v :: s.host }
  | _ => { s with rst := false, phase := .busy, command := v, latency := 0 }

/-! ### The host's notation (`30_encoding.md` R111, R112) -/

/-- `WR reg, imm32`, the register by its offset (R111). -/
def hostWR (offset : Nat) (v : Word) : HostOp := .write .reg 4 offset v

/-- `RD reg` (R111). -/
def hostRD (offset : Nat) : HostOp := .read .reg 4 offset

/-- `WB a, imm8` (R111). -/
def hostWB (a : Nat) (b : Byte) : HostOp := .write .inBuf 1 a (b.setWidth 32)

/-- `RB a` (R111). -/
def hostRB (a : Nat) : HostOp := .read .outBuf 1 a

/-- `LDIN a, b0 b1 … bk` (R112). -/
def hostLDIN : Nat → List Byte → List HostOp
  | _, [] => []
  | a, b :: bs => hostWB a b :: hostLDIN (a + 1) bs

/-- `RUN op` (R112). -/
def hostRUN (v : Word) : HostOp := hostWR 0x08 v

/-- `ACK` (R112). -/
def hostACK : HostOp := hostWR 0x0C 0x00000002

/-- `DUMP n` (R112). -/
def hostDUMP (n : Nat) : List HostOp := (List.range n).map hostRB

end Sys2Proof.Machine
end

