-- ==== Sys2Proof/Machine/Step.lean ====
section
/-! DEFINITION. The step of the machine, and a command placed where the next step runs it. -/

namespace Sys2Proof.Machine

/-- One step: the host's turn or the engine's (`blockStep`). -/
def step (s : State) : Host.Outcome State Fault Refusal := blockStep s

/-- `s` with the command of the table word `w` placed so that the next step runs it (log 2). A command is one 32-bit word. -/
def State.withFetchWord (s : State) (nbits w : Nat) : State := placeCommand (BitVec.ofNat 32 (w % 2 ^ nbits)) s

end Sys2Proof.Machine
end

