-- ==== Sys2Proof/Safety.lean ====
section
/-! DEFINITION. What statements about runs speak of: the transactions the spec admits, the host that keeps its duties, the invariants
of the block, and the shape of a well-built tree. -/

namespace Sys2Proof.Machine

/-- Whether the spec admits a host transaction in a state: a register access in the form of `20_memory.md` R61, a buffer access in the form
of R62, and no buffer write while BUSY (`70_reset_and_hazards.md` R344, R345). -/
def HostOp.admitted (s : State) : HostOp → Bool
  | .read .reg width offset => (regOperand width offset).isSome
  | .read .inBuf width offset => byteAdmitted s.inSize width offset
  | .read .outBuf width offset => byteAdmitted s.outSize width offset
  | .write .reg width offset _ => (regOperand width offset).isSome
  | .write .inBuf width offset _ => byteAdmitted s.inSize width offset && !s.busy
  | .write .outBuf width offset _ => byteAdmitted s.outSize width offset && !s.busy
  | .poll => true
  | .rst _ => true

/-- Whether a host transaction is one a host may issue during a command without resetting the block: admitted, and not a rising `rst`. -/
def HostOp.dutiful (s : State) : HostOp → Bool
  | .rst level => !level
  | op => HostOp.admitted s op

/-- A safe step: one that answers a next state. -/
def SafeStep (s : State) : Prop := ∃ t, step s = .next t

/-- Every byte a buffer lists lies inside it. -/
abbrev Memory.within (m : Memory) (size : Word) : Prop := ∀ c ∈ m, c.1 < size.toNat

/-- The buffers are in canonical form and inside their sizes (`10_state.md` R38, R39). -/
abbrev BuffersInv (s : State) : Prop :=
  Memory.wf s.inBuf ∧ Memory.within s.inBuf s.inSize ∧ Memory.wf s.outBuf ∧ Memory.within s.outBuf s.outSize

/-- `STATUS` and the result registers agree with the phase: `10_state.md` R27 (BUSY = 1 implies DONE = ERR = ERRCODE = 0), R29 to R33 (results
0 from acceptance on and after an error), `60_exceptions.md` R301 (the codes raised are 1..8, and `ERRCODE` is 0 when `ERR` is 0). -/
abbrev StatusInv (s : State) : Prop :=
  (s.phase = .busy → s.done = false ∧ s.err = false ∧ s.outLen = 0 ∧ s.syms = 0 ∧ s.total = 0 ∧ s.resid = 0) ∧
  (s.err = false → s.errCode = 0) ∧
  (s.err = true → s.done = true ∧ 1 ≤ s.errCode.toNat ∧ s.errCode.toNat ≤ 8 ∧
    s.outLen = 0 ∧ s.syms = 0 ∧ s.total = 0 ∧ s.resid = 0)

/-- The result registers keep their ranges: `OUT_LEN ≤ OUT_SIZE`, `SYMS ≤ 256` (R30), `TOTAL_HI` = 0 (R32), `RESID ≤ 8` (`30_encoding.md` R105). -/
abbrev ResultsInv (s : State) : Prop :=
  s.outLen.toNat ≤ s.outSize.toNat ∧ s.syms.toNat ≤ 256 ∧ s.total.toNat < 2 ^ 32 ∧ s.resid.toNat ≤ 8

/-- While `rst` is high the registers are at their reset values, the block is idle and the buffers hold nothing defined
(`70_reset_and_hazards.md` R340); and a running command is one that was accepted, so it is not `NOP` (`40_commands.md` R140). -/
abbrev ResetInv (s : State) : Prop :=
  (s.rst = true → s.phase = .idle ∧ s.ctrlIE = false ∧ s.done = false ∧ s.err = false ∧ s.errCode = 0 ∧ s.inLen = 0 ∧
    s.outLen = 0 ∧ s.syms = 0 ∧ s.total = 0 ∧ s.resid = 0 ∧ s.inBuf = [] ∧ s.outBuf = []) ∧
  (s.phase = .busy → decodeWord s.command ≠ .ok .nop)

/-- Every internal weight is the sum of its children's (`42_tree_builder.md` R186). -/
def Tree.weightsAdd : Tree → Prop
  | .leaf _ _ _ => True
  | .node w l r _ => w = l.weight + r.weight ∧ l.weightsAdd ∧ r.weightsAdd

/-- The contract of `BuildTree`: 1 ≤ L ≤ 256, distinct symbols, every frequency at least 1 (`42_tree_builder.md` R180). -/
abbrev BuildContract (es : List Entry) : Prop :=
  1 ≤ es.length ∧ es.length ≤ 256 ∧ (es.map Entry.sym).Nodup ∧ ∀ e ∈ es, 1 ≤ e.freq.toNat

end Sys2Proof.Machine
end

