-- ==== Sys2Proof/Certificates/Slice0/Obligations.lean ====
section
/-! DEFINITION. The statements for the provers, by the rules of `spec/` they formalise. -/

open Sys2Proof Sys2Proof.Machine

/-! ### Encodings: the command word, bytes and bits -/

/-- R101: the three command words, matched as whole 32-bit words. -/
def Obligations.CommandWordsDecodeAsListed : Prop :=
  decodeWord 0x00000000 = .ok .nop ∧ decodeWord 0x00000001 = .ok .encode ∧ decodeWord 0x00000002 = .ok .decode ∧
  ∀ (w : Word) (i : Instr), decodeWord w = .ok i → w = encode i

/-- R102: every other word is illegal, by `MBZ` or by `OP`. -/
def Obligations.OtherWordsAreIllegal : Prop :=
  ∀ w : Word,
    (commandMbz w ≠ 0 → decodeWord w = .error .mustBeZero) ∧
    (commandMbz w = 0 → 3 ≤ (commandOp w).toNat → decodeWord w = .error .illegalOp) ∧
    (commandMbz w = 0 → (commandOp w).toNat < 3 → ∃ i, decodeWord w = .ok i)

/-- R100, R101: a command's word decodes to the command. -/
def Obligations.DecodeOfEncodedCommand : Prop :=
  ∀ i : Instr, WellFormed i = true → decodeWord (encode i) = .ok i ∧ wellFormedWord (encode i) = true

/-- R13, R14: the number a bit string and four big-endian bytes stand for, and their inverses. -/
def Obligations.ByteAndWordAssembly : Prop :=
  (∀ x7 x6 x5 x4 x3 x2 x1 x0 : Bool,
    (byteOfBits [x7, x6, x5, x4, x3, x2, x1, x0]).toNat =
      x7.toNat * 2 ^ 7 + x6.toNat * 2 ^ 6 + x5.toNat * 2 ^ 5 + x4.toNat * 2 ^ 4 +
      x3.toNat * 2 ^ 3 + x2.toNat * 2 ^ 2 + x1.toNat * 2 ^ 1 + x0.toNat * 2 ^ 0 ∧
    bits8 (byteOfBits [x7, x6, x5, x4, x3, x2, x1, x0]) = [x7, x6, x5, x4, x3, x2, x1, x0]) ∧
  (∀ v : Byte, byteOfBits (bits8 v) = v) ∧
  (∀ b0 b1 b2 b3 : Byte,
    (be32 b0 b1 b2 b3).toNat = b0.toNat * 2 ^ 24 + b1.toNat * 2 ^ 16 + b2.toNat * 2 ^ 8 + b3.toNat ∧
    be32enc (be32 b0 b1 b2 b3) = [b0, b1, b2, b3])

/-! ### The step -/

/-- The step runs the decoded command: the accepted word while BUSY, once its latency has run out; `NOP` at its write to `CMD`. Else it is
the host's turn: its oldest transaction or, where none is pending, nothing but the latency's count (R322, log 20). The host's list and the
latency are the model's own (logs 2 and 3). -/
def Obligations.StepRunsTheDecodedCommand : Prop :=
  (∀ (s : State) (i : Instr), s.phase = .busy → s.latency = 0 → decodeWord s.command = .ok i → step s = exec i s) ∧
  (∀ (s : State) (v : Word) (rest : List HostOp), s.phase = .idle → s.rst = false → s.host = hostRUN v :: rest →
    decodeWord v = .ok .nop → step s = exec .nop { s with host := rest }) ∧
  (∀ (s : State) (op : HostOp) (rest : List HostOp), s.phase = .idle → s.host = op :: rest →
    step s = hostOp op { s with host := rest }) ∧
  (∀ (s : State) (k : Nat) (op : HostOp) (rest : List HostOp), s.phase = .busy → s.latency = k + 1 → s.host = op :: rest →
    step s = hostOp op { s with host := rest, latency := k }) ∧
  (∀ s : State, s.phase = .idle → s.host = [] → step s = .next s) ∧
  (∀ (s : State) (k : Nat), s.phase = .busy → s.latency = k + 1 → s.host = [] → step s = .next { s with latency := k })

/-- A command placed by `withFetchWord` is what the next step runs, from any state (the model's convention, log 2). -/
def Obligations.PlacedCommandRunsNext : Prop :=
  ∀ (s : State) (i : Instr), ∃ t : State,
    step (s.withFetchWord 32 (encode i).toNat) = exec i t ∧
    t.inSize = s.inSize ∧ t.outSize = s.outSize ∧ t.inLen = s.inLen ∧ t.inBuf = s.inBuf ∧ t.outBuf = s.outBuf ∧
    t.ctrlIE = s.ctrlIE ∧ t.host = s.host ∧ t.draws = s.draws

/-- R140: what a write of a word to `CMD` does while IDLE, and what then runs. -/
def Obligations.AcceptanceClearsAndStarts : Prop :=
  (∀ (s : State) (v : Word) (rest : List HostOp), s.phase = .idle → s.rst = false → s.host = hostRUN v :: rest →
    (v = 0 → step s = .next { s with host := rest }) ∧
    (v ≠ 0 → ∃ t, step s = .next t ∧ t.phase = .busy ∧ t.command = v ∧
      t.done = false ∧ t.err = false ∧ t.errCode = 0 ∧
      t.outLen = 0 ∧ t.syms = 0 ∧ t.total = 0 ∧ t.resid = 0 ∧
      t.inBuf = s.inBuf ∧ t.outBuf = s.outBuf ∧ t.inLen = s.inLen ∧ t.ctrlIE = s.ctrlIE ∧ t.host = rest)) ∧
  (∀ s : State, s.phase = .busy → s.latency = 0 → s.command ≠ 0 →
    (s.command = 1 → step s = exec .encode s) ∧
    (s.command = 2 → step s = exec .decode s) ∧
    (s.command ≠ 1 → s.command ≠ 2 → step s = execIllegal s))

/-- R146, R347: while BUSY, writes to `CMD`, `STATUS` and `IN_LEN` change nothing and the command goes on. -/
def Obligations.WritesWhileBusyAreIgnored : Prop :=
  ∀ (s : State) (k offset : Nat) (v : Word) (rest : List HostOp),
    s.phase = .busy → s.latency = k + 1 → (offset = 0x08 ∨ offset = 0x0C ∨ offset = 0x10) →
    s.host = hostWR offset v :: rest →
    step s = .next { s with host := rest, latency := k }

/-- R351: after an accepted `CMD` write every status read gives BUSY = 1 and no bit of an earlier command, until the completion. -/
def Obligations.NoStaleStatus : Prop :=
  (∀ (s : State) (v : Word) (rest : List HostOp), s.phase = .idle → s.rst = false → s.host = hostRUN v :: rest → v ≠ 0 →
    ∃ t, step s = .next t ∧ statusWord t = 0x00000001) ∧
  (∀ s : State, StatusInv s → s.phase = .busy → statusWord s = 0x00000001)

/-- R147: a running command completes after finitely many steps, whatever a host that keeps its duties does meanwhile. -/
def Obligations.AcceptedCommandCompletes : Prop :=
  ∀ s : State, s.phase = .busy → s.rst = false → decodeWord s.command ≠ .ok .nop →
    (∀ op ∈ s.host, HostOp.dutiful s op = true) →
    ∃ t : State, Sys2Proof.core.run (s.latency + 1) s = .next t ∧ t.phase = .idle ∧ t.done = true

/-- R71: for a host that keeps its duties, the accesses it makes during a command do not change what the command leaves. -/
def Obligations.CommandIsAtomicForADutifulHost : Prop :=
  ∀ s : State, s.phase = .busy → s.rst = false → decodeWord s.command ≠ .ok .nop →
    (∀ op ∈ s.host, HostOp.dutiful s op = true) →
    (s.inLen.toNat ≤ s.inSize.toNat → ∀ a, a < s.inLen.toNat → (Memory.read s.inBuf a).isSome = true) →
    ∃ t u : State, Sys2Proof.core.run (s.latency + 1) s = .next t ∧ engineTurn s = .next u ∧
      statusWord t = statusWord u ∧ t.outLen = u.outLen ∧ t.syms = u.syms ∧ t.total = u.total ∧ t.resid = u.resid ∧
      t.inBuf = u.inBuf ∧ t.inLen = u.inLen ∧ ∀ a, Memory.read t.outBuf a = Memory.read u.outBuf a

/-- R61, R62, R344, R345: a step is refused exactly when it is the host's turn and its transaction is one the spec refuses; and which those
are. -/
def Obligations.OnlyRefusedAccessesStopAStep : Prop :=
  (∀ s : State, (∃ r, step s = .refused r) ↔
    (s.phase = .idle ∨ s.latency ≠ 0) ∧ ∃ op rest, s.host = op :: rest ∧ HostOp.admitted s op = false) ∧
  (∀ width offset : Nat, (regOperand width offset).isSome = true ↔ width = 4 ∧ offset % 4 = 0 ∧ offset ≤ 0x3C) ∧
  (∀ (size : Word) (width offset : Nat), byteAdmitted size width offset = true ↔ width = 1 ∧ offset < size.toNat) ∧
  (∀ (s : State) (offset : Nat) (v : Word), s.phase = .busy →
    HostOp.admitted s (.write .inBuf 1 offset v) = false ∧ HostOp.admitted s (.write .outBuf 1 offset v) = false)

/-! ### The commands -/

/-- R141: `NOP` has no effect, whenever it is written. -/
def Obligations.NopHasNoEffect : Prop :=
  (∀ s : State, exec .nop s = .next s) ∧
  (∀ (s : State) (rest : List HostOp), s.host = hostRUN 0 :: rest → s.phase = .idle →
    step s = .next { s with host := rest }) ∧
  (∀ (s : State) (k : Nat) (rest : List HostOp), s.host = hostRUN 0 :: rest → s.phase = .busy → s.latency = k + 1 →
    step s = .next { s with host := rest, latency := k })

/-- R142: where no error applies, `ENCODE` completes, and everything it leaves. -/
def Obligations.EncodeCompletes : Prop :=
  ∀ (s : State) (data : List Byte), data = inSnapshot s s.inLen.toNat → s.inLen ≠ 0 → s.inLen.toNat ≤ s.inSize.toNat →
    encodeSize data ≤ s.outSize.toNat →
    ∃ t, exec .encode s = .next t ∧
      t.phase = .idle ∧ t.done = true ∧ t.err = false ∧ t.errCode = 0 ∧
      t.outLen.toNat = encodeSize data ∧ t.syms.toNat = (encodeEntries data).length ∧
      t.total.toNat = s.inLen.toNat ∧ t.resid.toNat = encodeBits data % 8 ∧
      (∀ a, a < encodeSize data → Memory.read t.outBuf a = (encodeContainer data)[a]? ∧ (encodeContainer data)[a]? ≠ none) ∧
      (∀ a, encodeSize data ≤ a → Memory.read t.outBuf a = Memory.read s.outBuf a) ∧
      t.inBuf = s.inBuf ∧ t.inLen = s.inLen ∧ t.ctrlIE = s.ctrlIE

/-- R310, R302, R307, R308: `ENCODE` always ends, with the first of its three errors that applies, or with none. -/
def Obligations.EncodeReportsTheFirstError : Prop :=
  ∀ s : State, ∃ t, exec .encode s = .next t ∧ t.phase = .idle ∧ t.done = true ∧ t.err = decide (t.errCode ≠ 0) ∧
    (s.inLen = 0 → t.errCode = 1) ∧
    (s.inLen ≠ 0 → s.inSize.toNat < s.inLen.toNat → t.errCode = 6) ∧
    (s.inLen ≠ 0 → s.inLen.toNat ≤ s.inSize.toNat → s.outSize.toNat < encodeSize (inSnapshot s s.inLen.toNat) →
      t.errCode = 7) ∧
    (s.inLen ≠ 0 → s.inLen.toNat ≤ s.inSize.toNat → encodeSize (inSnapshot s s.inLen.toNat) ≤ s.outSize.toNat →
      t.errCode = 0)

/-- R143: where no error applies, `DECODE` completes, and everything it leaves. -/
def Obligations.DecodeCompletes : Prop :=
  ∀ (s : State) (k : Container) (w : WalkState), s.inLen.toNat ≤ s.inSize.toNat →
    decodeContainer s.outSize.toNat (inSnapshot s s.inLen.toNat) = .ok (k, w) →
    ∃ t, exec .decode s = .next t ∧
      t.phase = .idle ∧ t.done = true ∧ t.err = false ∧ t.errCode = 0 ∧
      t.outLen.toNat = totalCount k.entries ∧ t.syms.toNat = k.entries.length ∧
      t.total.toNat = totalCount k.entries ∧ t.resid.toNat = k.resid ∧
      (∀ a, a < totalCount k.entries → Memory.read t.outBuf a = w.out[a]? ∧ w.out[a]? ≠ none) ∧
      (∀ a, totalCount k.entries ≤ a → Memory.read t.outBuf a = Memory.read s.outBuf a) ∧
      t.inBuf = s.inBuf ∧ t.inLen = s.inLen ∧ t.ctrlIE = s.ctrlIE

/-- R310, R304 to R308: `DECODE` always ends, with the first error its rules reach, or with none. -/
def Obligations.DecodeReportsTheFirstError : Prop :=
  ∀ s : State, ∃ t, exec .decode s = .next t ∧ t.phase = .idle ∧ t.done = true ∧ t.err = decide (t.errCode ≠ 0) ∧
    (s.inSize.toNat < s.inLen.toNat → t.errCode = 6) ∧
    (s.inLen.toNat ≤ s.inSize.toNat → ∀ e,
      parseContainer (inSnapshot s s.inLen.toNat) = .error e → t.errCode = e.code) ∧
    (s.inLen.toNat ≤ s.inSize.toNat → ∀ k, parseContainer (inSnapshot s s.inLen.toNat) = .ok k →
      (s.outSize.toNat < totalCount k.entries → t.errCode = 7) ∧
      (totalCount k.entries ≤ s.outSize.toNat → ∀ e,
        walk (buildTree k.entries) k.entries (meaningfulBits k) (totalCount k.entries) = .error e → t.errCode = e.code) ∧
      (totalCount k.entries ≤ s.outSize.toNat → ∀ w,
        walk (buildTree k.entries) k.entries (meaningfulBits k) (totalCount k.entries) = .ok w → t.errCode = 0))

/-- R144: an illegal word, written while IDLE, is accepted; its one engine step, whenever it comes, ends it with `IllegalCommandError`; and
it comes after the latency drawn for it (logs 3 and 4), whatever a host that keeps its duties does until then. -/
def Obligations.IllegalWordEndsInItsError : Prop :=
  (∀ (s : State) (e : DecodeError), s.phase = .busy → s.latency = 0 → decodeWord s.command = .error e →
    ∃ u, step s = .next u ∧ u.phase = .idle ∧ statusWord u = 0x00000086 ∧
      u.outLen = 0 ∧ u.syms = 0 ∧ u.total = 0 ∧ u.resid = 0 ∧ (∀ a, Memory.read u.outBuf a = none) ∧
      u.inBuf = s.inBuf ∧ u.inLen = s.inLen ∧ u.ctrlIE = s.ctrlIE ∧ u.host = s.host) ∧
  (∀ (s : State) (v : Word) (e : DecodeError) (rest : List HostOp),
    s.phase = .idle → s.rst = false → s.host = hostRUN v :: rest → decodeWord v = .error e →
    ∃ t, step s = .next t ∧ t.phase = .busy ∧ t.command = v ∧ statusWord t = 0x00000001 ∧ t.host = rest ∧
      ((∀ op ∈ rest, HostOp.dutiful t op = true) →
        ∃ u, Sys2Proof.core.run (t.latency + 1) t = .next u ∧ u.phase = .idle ∧ statusWord u = 0x00000086 ∧
          u.outLen = 0 ∧ u.syms = 0 ∧ u.total = 0 ∧ u.resid = 0 ∧ (∀ a, Memory.read u.outBuf a = none) ∧
          u.inBuf = s.inBuf ∧ u.inLen = s.inLen))

/-- R311: what every error leaves. -/
def Obligations.ErrorEntryLeavesThisState : Prop :=
  ∀ (i : Instr) (s t : State), (i ≠ .nop ∧ exec i s = .next t) ∨ execIllegal s = .next t → t.err = true →
    t.phase = .idle ∧ t.done = true ∧ (∃ e : CommandError, t.errCode = e.code) ∧
    t.outLen = 0 ∧ t.syms = 0 ∧ t.total = 0 ∧ t.resid = 0 ∧ (∀ a, Memory.read t.outBuf a = none) ∧
    t.inBuf = s.inBuf ∧ t.inLen = s.inLen ∧ t.ctrlIE = s.ctrlIE

/-- The frame of every command: what none of them changes (R66 for `IN`), and that `NOP` changes nothing. That the accepted word is kept
after completion is the model's choice (log 12), and the host's list, the latency and `rdata` are the model's own fields (logs 2, 3, 11). -/
def Obligations.CommandFrame : Prop :=
  ∀ (i : Instr) (s t : State), exec i s = .next t →
    t.inSize = s.inSize ∧ t.outSize = s.outSize ∧ t.rst = s.rst ∧ t.command = s.command ∧ t.ctrlIE = s.ctrlIE ∧
    t.inLen = s.inLen ∧ t.inBuf = s.inBuf ∧ (∀ a, Memory.read t.inBuf a = Memory.read s.inBuf a) ∧
    t.host = s.host ∧ t.rdata = s.rdata ∧ t.latency = s.latency ∧ (i = .nop → t = s)

/-- R69: which bytes of `OUT` a command writes. -/
def Obligations.CommandWritesExactlyItsOutput : Prop :=
  ∀ (i : Instr) (s t : State), i ≠ .nop → exec i s = .next t →
    (t.err = false →
      (∀ a, a < t.outLen.toNat → ∃ b, Memory.read t.outBuf a = some b) ∧
      (∀ a, t.outLen.toNat ≤ a → Memory.read t.outBuf a = Memory.read s.outBuf a)) ∧
    (t.err = true → ∀ a, Memory.read t.outBuf a = none)

/-- R148: the results are a function of `IN_LEN`, the bytes `IN[0 .. IN_LEN)` and the parameters. -/
def Obligations.ResultsDependOnTheInputAlone : Prop :=
  ∀ (i : Instr) (s s' : State), i ≠ .nop → s'.inSize = s.inSize → s'.outSize = s.outSize → s'.inLen = s.inLen →
    (s.inLen.toNat ≤ s.inSize.toNat → ∀ a, a < s.inLen.toNat →
      (Memory.read s.inBuf a).isSome = true ∧ Memory.read s'.inBuf a = Memory.read s.inBuf a) →
    ∃ t t', exec i s = .next t ∧ exec i s' = .next t' ∧ statusWord t' = statusWord t ∧
      t'.outLen = t.outLen ∧ t'.syms = t.syms ∧ t'.total = t.total ∧ t'.resid = t.resid ∧
      ∀ a, a < t.outLen.toNat → Memory.read t'.outBuf a = Memory.read t.outBuf a

/-! ### Frequency analysis and the tree -/

/-- R172 (and the ascending order of R171): the properties of the entry list. -/
def Obligations.EntryListProperties : Prop :=
  ∀ data : List Byte, data.length < 2 ^ 32 →
    (∀ e ∈ encodeEntries data, 1 ≤ e.freq.toNat ∧ e.freq.toNat = data.count e.sym) ∧
    ((encodeEntries data).map Entry.sym).Nodup ∧
    totalCount (encodeEntries data) = data.length ∧
    (encodeEntries data).length = data.toFinset.card ∧
    ((encodeEntries data).map (fun e => e.sym.toNat)).Pairwise (· < ·)

/-- R18, R182: `extract-min` removes the node of least key and keeps every other. -/
def Obligations.ExtractMinTakesTheLeastKey : Prop :=
  ∀ (t : Tree) (ts : List Tree), ((t :: ts).map Tree.seq).Nodup →
    ((extractMin t ts).1 :: (extractMin t ts).2).Perm (t :: ts) ∧
    ∀ u ∈ (extractMin t ts).2,
      (extractMin t ts).1.weight < u.weight ∨
      ((extractMin t ts).1.weight = u.weight ∧ (extractMin t ts).1.seq < u.seq)

/-- R186 (and the counts of R184): the invariants of the built tree. -/
def Obligations.BuiltTreeInvariants : Prop :=
  ∀ es : List Entry, BuildContract es →
    (buildTree es).weightsAdd ∧
    (buildTree es).symbols.Perm (es.map Entry.sym) ∧
    (buildTree es).weight = totalCount es ∧
    ((buildTree es).subtrees.map Tree.seq).Perm (List.range (2 * es.length - 1)) ∧
    (buildTree es).seq = 2 * es.length - 2 ∧
    ∀ n ∈ (buildTree es).subtrees, n.weight ≤ totalCount es ∧ n.weight < 2 ^ 40

/-- R42, R53: node `i` of the arena has `seq = i`, and the widths of the arena hold every weight exactly. -/
def Obligations.ArenaHoldsTheTreeExactly : Prop :=
  ∀ es : List Entry, BuildContract es →
    (buildTree es).arena.length = 2 * es.length - 1 ∧
    ∀ i, i < 2 * es.length - 1 → ∃ n ∈ (buildTree es).subtrees, n.seq = i ∧
      ∃ r, (buildTree es).arena[i]? = some r ∧ r.seq.toNat = i ∧ r.w.toNat = n.weight ∧ r = n.record

/-- R189, R190: the worked trees. -/
def Obligations.WorkedTreesComeOutAsTheSpecSays : Prop :=
  codeTable (buildTree [⟨0x43, 1⟩, ⟨0x42, 1⟩, ⟨0x41, 1⟩]) =
    [(0x42, [false, false]), (0x43, [false, true]), (0x41, [true])] ∧
  codeTable (buildTree [⟨0x41, 1⟩, ⟨0x42, 1⟩, ⟨0x43, 1⟩]) =
    [(0x42, [false, false]), (0x41, [false, true]), (0x43, [true])] ∧
  buildTree [⟨0x41, 5⟩, ⟨0x42, 2⟩, ⟨0x43, 1⟩, ⟨0x44, 1⟩, ⟨0x52, 2⟩] =
    .node 11
      (.node 6
        (.node 4 (.leaf 0x52 2 4) (.leaf 0x42 2 1) 6)
        (.node 2 (.leaf 0x44 1 3) (.leaf 0x43 1 2) 5) 7)
      (.leaf 0x41 5 0) 8

/-- R203: the code is prefix-free, covers exactly the symbols, and is complete for L ≥ 2. -/
def Obligations.CodesArePrefixFreeAndComplete : Prop :=
  ∀ (es : List Entry) (cs : Codes), BuildContract es → cs = codeTable (buildTree es) →
    (∀ x ∈ cs, ∀ y ∈ cs, x ≠ y → ¬ x.2 <+: y.2) ∧
    (∀ s : Byte, 0 < (codeOf cs s).length ↔ s ∈ es.map Entry.sym) ∧
    (∀ x ∈ cs, codeOf cs x.1 = x.2 ∧ x.2.length ≤ 255) ∧
    (2 ≤ es.length →
      (cs.map (fun x => (1 / 2 : ℚ) ^ x.2.length)).sum = 1 ∧
      ∀ f : Nat → Bool, ∃ x ∈ cs, x.2 = (List.range x.2.length).map f ∧
        ∀ y ∈ cs, y.2 = (List.range y.2.length).map f → y = x) ∧
    (es.length = 1 → ∃ s, cs = [(s, [false])])

/-! ### The encoder and bit-packer -/

/-- R222: the bit-packer flushes the moment it holds 8 bits. -/
def Obligations.AppendBitFlushesAtEight : Prop :=
  ∀ (p : Packer) (b : Bool), p.buf.length ≤ 7 →
    (p.buf.length = 7 → appendBit p b = ⟨p.out ++ [byteOfBits (p.buf ++ [b])], []⟩) ∧
    (p.buf.length < 7 → appendBit p b = ⟨p.out, p.buf ++ [b]⟩) ∧
    (appendBit p b).buf.length ≤ 7

/-- R223: the payload in closed form, and what stays in the buffer. -/
def Obligations.PayloadClosedForm : Prop :=
  ∀ (es : List Entry) (cs : Codes) (data : List Byte) (bits : Bits), bits = symbolBits cs data →
    (packSymbols es cs data).out =
      headerBytes es ++ (List.range (bits.length / 8)).map (fun j => byteOfBits ((bits.drop (8 * j)).take 8)) ∧
    (packSymbols es cs data).buf = bits.drop (8 * (bits.length / 8))

/-- R224: the trailer, always two bytes, the bits left-justified with zeros below. -/
def Obligations.TrailerIsLeftJustified : Prop :=
  ∀ buf : Bits, buf.length ≤ 7 → ∃ r f : Byte, trailerBytes buf = [r, f] ∧ r.toNat = buf.length ∧
    bits8 f = buf ++ List.replicate (8 - buf.length) false

/-- R225, R226: the length of the container `ENCODE` writes is the size it checked, and the residual length it writes is Bt mod 8. -/
def Obligations.ContainerLengthIsTheCheckedSize : Prop :=
  ∀ data : List Byte, data ≠ [] → data.length < 2 ^ 32 →
    (symbolBits (encodeCodes data) data).length = encodeBits data ∧
    (encodeContainer data).length = encodeSize data ∧
    ((encodeContainer data)[encodeSize data - 2]?).map BitVec.toNat = some (encodeBits data % 8)

/-- R262, R227: the container `ENCODE` writes parses back to its entry list, its residual length and its bits. -/
def Obligations.EncodedContainerParsesBack : Prop :=
  ∀ data : List Byte, data ≠ [] → data.length < 2 ^ 32 →
    ∃ k, parseContainer (encodeContainer data) = .ok k ∧ k.entries = encodeEntries data ∧
      totalCount k.entries = data.length ∧ k.resid = encodeBits data % 8 ∧ k.resid ≤ 7 ∧
      meaningfulBits k = symbolBits (encodeCodes data) data

/-! ### The decoder -/

/-- R250, R251 over the offsets of R104: the checks in their order, and what a good container parses to. -/
def Obligations.ParseChecksInOrder : Prop :=
  ∀ (c : List Byte) (b : Nat → Byte) (l : Nat) (sym : Nat → Byte) (freq : Nat → Word),
    (∀ i, b i = c.getD i 0) → l = (be32 (b 0) (b 1) (b 2) (b 3)).toNat →
    (∀ i, sym i = b (4 + 5 * i)) →
    (∀ i, freq i = be32 (b (5 + 5 * i)) (b (6 + 5 * i)) (b (7 + 5 * i)) (b (8 + 5 * i))) →
    (c.length < 4 → parseContainer c = .error .malformedHeader) ∧
    (4 ≤ c.length → l = 0 ∨ 256 < l ∨ c.length < 4 + 5 * l → parseContainer c = .error .malformedHeader) ∧
    (4 ≤ c.length → 1 ≤ l → l ≤ 256 → 4 + 5 * l ≤ c.length →
      ((∃ i, i < l ∧ (freq i = 0 ∨ ∃ j, j < i ∧ sym j = sym i)) → parseContainer c = .error .malformedHeader) ∧
      ((∀ i, i < l → freq i ≠ 0 ∧ ∀ j, j < i → sym j ≠ sym i) →
        (c.length < 4 + 5 * l + 2 → parseContainer c = .error .truncatedPayload) ∧
        (4 + 5 * l + 2 ≤ c.length → 8 < (b (c.length - 2)).toNat → parseContainer c = .error .invalidResidualLength) ∧
        (4 + 5 * l + 2 ≤ c.length → (b (c.length - 2)).toNat ≤ 8 →
          parseContainer c = .ok ⟨(List.range l).map (fun i => ⟨sym i, freq i⟩),
            (c.drop (4 + 5 * l)).take (c.length - 2 - (4 + 5 * l)), (b (c.length - 2)).toNat, b (c.length - 1)⟩)))

/-- R106: the length of the meaningful bit string, and its bits in order. -/
def Obligations.MeaningfulBitsArePayloadThenResidual : Prop :=
  ∀ k : Container, k.resid ≤ 8 →
    (meaningfulBits k).length = 8 * k.payload.length + k.resid ∧
    (∀ j, j < 8 * k.payload.length →
      (meaningfulBits k)[j]? = some ((k.payload.getD (j / 8) 0).getLsbD (7 - j % 8))) ∧
    (∀ j, j < k.resid → (meaningfulBits k)[8 * k.payload.length + j]? = some (k.final.getLsbD (7 - j)))

/-- R255, R260: a walk that succeeds ends at the root with every `REM` at zero, and its output has the header's counts. For L = 1 the
clauses on the cursor and on `REM` are the model's choice (log 18): R256 has no cursor and does not write `REM`; there the model's working
cursor stands at the root and `REM` counts down as R54 has it. -/
def Obligations.SuccessfulWalkMatchesTheHeader : Prop :=
  ∀ (es : List Entry) (m : Bits) (w : WalkState), BuildContract es →
    walk (buildTree es) es m (totalCount es) = .ok w →
    w.cursor = buildTree es ∧ w.dcount = totalCount es ∧ w.out.length = totalCount es ∧
    ∀ e ∈ es, w.out.count e.sym = e.freq.toNat ∧ remOf w.rem e.sym = 0

/-- R256: the walk for L = 1. -/
def Obligations.SingleSymbolWalk : Prop :=
  ∀ (s : Byte) (v q total : Nat) (es : List Entry) (m : Bits),
    (total < m.length ∨ true ∈ m → walk (.leaf s v q) es m total = .error .treeReconstructionMismatch) ∧
    (m.length < total → true ∉ m → walk (.leaf s v q) es m total = .error .truncatedPayload) ∧
    (m.length = total → true ∉ m →
      ∃ w, walk (.leaf s v q) es m total = .ok w ∧ w.out = List.replicate total s ∧ w.dcount = total)

/-- R255, R257, R258: the walk on a string of codes: it emits the symbols coded, reports a shortfall when they are too few, whether the bits
end after a code or inside one, and an excess bit when more follow. -/
def Obligations.WalkEmitsTheCodedSymbols : Prop :=
  ∀ (es : List Entry) (data : List Byte), BuildContract es →
    (∀ s ∈ data, s ∈ es.map Entry.sym) → (∀ e ∈ es, data.count e.sym ≤ e.freq.toNat) →
    (data.length < totalCount es →
      walk (buildTree es) es (symbolBits (codeTable (buildTree es)) data) (totalCount es) = .error .truncatedPayload ∧
      ∀ (e : Entry) (pre : Bits), e ∈ es → pre ≠ [] → pre <+: codeOf (codeTable (buildTree es)) e.sym →
        pre ≠ codeOf (codeTable (buildTree es)) e.sym →
        walk (buildTree es) es (symbolBits (codeTable (buildTree es)) data ++ pre) (totalCount es) = .error .truncatedPayload) ∧
    (data.length = totalCount es →
      (∃ w, walk (buildTree es) es (symbolBits (codeTable (buildTree es)) data) (totalCount es) = .ok w ∧ w.out = data) ∧
      ∀ (b : Bool) (bs : Bits),
        walk (buildTree es) es (symbolBits (codeTable (buildTree es)) data ++ b :: bs) (totalCount es) =
          .error .treeReconstructionMismatch)

/-- R260: a symbol coded more often than its stored frequency is an error, whatever bits follow. -/
def Obligations.OverCountIsAMismatch : Prop :=
  ∀ (es : List Entry) (data : List Byte) (e : Entry) (bs : Bits), BuildContract es →
    (∀ s ∈ data, s ∈ es.map Entry.sym) → (∀ d ∈ es, data.count d.sym ≤ d.freq.toNat) →
    e ∈ es → data.count e.sym = e.freq.toNat →
    walk (buildTree es) es
      (symbolBits (codeTable (buildTree es)) data ++ codeOf (codeTable (buildTree es)) e.sym ++ bs) (totalCount es) =
        .error .treeReconstructionMismatch

/-- R259: the padding bits of `F` have no effect. -/
def Obligations.PaddingBitsAreIgnored : Prop :=
  ∀ (outSize : Nat) (pre : List Byte) (f g : Byte) (k : Container),
    parseContainer (pre ++ [f]) = .ok k → (bits8 f).take k.resid = (bits8 g).take k.resid →
    (∃ k', parseContainer (pre ++ [g]) = .ok k' ∧ k'.entries = k.entries ∧ k'.payload = k.payload ∧ k'.resid = k.resid) ∧
    (decodeContainer outSize (pre ++ [g])).map Prod.snd = (decodeContainer outSize (pre ++ [f])).map Prod.snd

/-- R263: a container with R = 8 decodes as if its last byte were one more payload byte, followed by R = 0. -/
def Obligations.ResidualEightIsOneMorePayloadByte : Prop :=
  ∀ (outSize : Nat) (c : List Byte) (k : Container), parseContainer c = .ok k → k.resid = 8 →
    (decodeContainer outSize (c.take (c.length - 2) ++ [k.final, 0, 0])).map Prod.snd =
      (decodeContainer outSize c).map Prod.snd

/-- R264: removing any one payload byte of a container that `ENCODE` wrote is detected. -/
def Obligations.RemovedPayloadByteIsDetected : Prop :=
  ∀ (outSize j : Nat) (data : List Byte), data ≠ [] → data.length < 2 ^ 32 →
    4 + 5 * (encodeEntries data).length ≤ j → j < 4 + 5 * (encodeEntries data).length + encodeBits data / 8 →
    ∃ e, decodeContainer outSize ((encodeContainer data).eraseIdx j) = .error e ∧
      (data.length ≤ outSize → e = .truncatedPayload ∨ e = .treeReconstructionMismatch)

/-- R149: `DECODE` of what `ENCODE` wrote gives the source bytes back. -/
def Obligations.DecodeOfEncodeRoundTrip : Prop :=
  ∀ s t u : State,
    (∀ a, a < s.inLen.toNat → (Memory.read s.inBuf a).isSome = true) →
    exec .encode s = .next t → t.err = false →
    (∀ a, a < t.outLen.toNat → Memory.read u.inBuf a = Memory.read t.outBuf a) → u.inLen = t.outLen →
    t.outLen.toNat ≤ u.inSize.toNat → s.inLen.toNat ≤ u.outSize.toNat →
    ∃ v, exec .decode u = .next v ∧ v.done = true ∧ v.err = false ∧ v.outLen = s.inLen ∧
      ∀ a, a < s.inLen.toNat → Memory.read v.outBuf a = Memory.read s.inBuf a

/-! ### Registers, lines and buffers as the host sees them -/

/-- R24, R34, R35, R36, and the reads of R25 to R33: what a read of each register returns, in either phase; and the registers that ignore
a write. -/
def Obligations.RegisterMap : Prop :=
  (∀ s : State,
    hostOp (hostRD 0x00) s = .next { s with rdata := 0x48554631 } ∧
    hostOp (hostRD 0x04) s = .next { s with rdata := if s.ctrlIE then 1 else 0 } ∧
    hostOp (hostRD 0x08) s = .next { s with rdata := 0 } ∧
    hostOp (hostRD 0x0C) s = .next { s with rdata := statusWord s } ∧
    hostOp (hostRD 0x10) s = .next { s with rdata := s.inLen } ∧
    hostOp (hostRD 0x14) s = .next { s with rdata := s.outLen } ∧
    hostOp (hostRD 0x18) s = .next { s with rdata := s.syms.setWidth 32 } ∧
    hostOp (hostRD 0x1C) s = .next { s with rdata := BitVec.ofNat 32 s.total.toNat } ∧
    hostOp (hostRD 0x20) s = .next { s with rdata := BitVec.ofNat 32 (s.total.toNat / 2 ^ 32) } ∧
    hostOp (hostRD 0x24) s = .next { s with rdata := s.resid.setWidth 32 } ∧
    hostOp (hostRD 0x28) s = .next { s with rdata := s.inSize } ∧
    hostOp (hostRD 0x2C) s = .next { s with rdata := s.outSize }) ∧
  (∀ (s : State) (offset : Nat), offset ∈ [0x30, 0x34, 0x38, 0x3C] → hostOp (hostRD offset) s = .next { s with rdata := 0 }) ∧
  (∀ (s : State) (offset : Nat) (v : Word),
    offset ∈ [0x00, 0x14, 0x18, 0x1C, 0x20, 0x24, 0x28, 0x2C, 0x30, 0x34, 0x38, 0x3C] → hostOp (hostWR offset v) s = .next s)

/-- R25, R28: a `CTRL` write keeps bit 0 in either phase; an `IN_LEN` write keeps all 32 bits, and is ignored while BUSY. -/
def Obligations.CtrlAndInLenWrites : Prop :=
  ∀ (s : State) (v : Word), s.rst = false →
    hostOp (hostWR 0x04 v) s = .next { s with ctrlIE := v.getLsbD 0 } ∧
    (∀ t, hostOp (hostWR 0x04 v) s = .next t → hostOp (hostRD 0x04) t = .next { t with rdata := v &&& 1 }) ∧
    (s.phase = .idle → hostOp (hostWR 0x10 v) s = .next { s with inLen := v }) ∧
    (s.phase = .busy → hostOp (hostWR 0x10 v) s = .next s)

/-- R27: the fields of `STATUS`. -/
def Obligations.StatusWordFields : Prop :=
  ∀ s : State,
    (statusWord s).getLsbD 0 = decide (s.phase = .busy) ∧ (statusWord s).getLsbD 1 = s.done ∧
    (statusWord s).getLsbD 2 = s.err ∧ (statusWord s).getLsbD 3 = false ∧
    (statusWord s).extractLsb' 4 4 = s.errCode ∧ (statusWord s).extractLsb' 8 24 = 0

/-- R27, R313: a `STATUS` write while IDLE with bit 1 set acknowledges, with any other word or while BUSY it changes nothing; the
acknowledge drops `irq` and leaves `CTRL.IE`. -/
def Obligations.StatusWriteAcknowledges : Prop :=
  ∀ (s : State) (v : Word), s.rst = false →
    (s.phase = .idle → v.getLsbD 1 = true →
      ∃ t, hostOp (hostWR 0x0C v) s = .next t ∧ t = { s with done := false, err := false, errCode := 0 } ∧
        statusWord t = 0 ∧ irq t = false) ∧
    (v.getLsbD 1 = false ∨ s.phase = .busy → hostOp (hostWR 0x0C v) s = .next s)

/-- R37: `irq = CTRL.IE AND STATUS.DONE`, over the registers as the host reads them. -/
def Obligations.IrqIsEnableAndDone : Prop :=
  ∀ s : State, irq s = ((ctrlWord s).getLsbD 0 && (statusWord s).getLsbD 1)

/-- R72: a read, of any space, changes no state of the block (`rdata` and `draws` are the model's own). -/
def Obligations.ReadsHaveNoSideEffects : Prop :=
  ∀ (space : Space) (width offset : Nat) (s t : State),
    hostOp (.read space width offset) s = .next t → t = { s with rdata := t.rdata, draws := t.draws }

/-- R112: `POLL` reads `STATUS` and stays the host's next transaction while it reads BUSY = 1; the read that finds 0 takes it off. -/
def Obligations.PollRepeatsWhileBusy : Prop :=
  ∀ s : State,
    (s.phase = .busy → hostOp .poll s = .next { s with rdata := statusWord s, host := .poll :: s.host }) ∧
    (s.phase = .idle → hostOp .poll s = .next { s with rdata := statusWord s })

/-- R67, R345: what a buffer read returns: the byte, or a draw where it holds no defined value, and always a draw for `OUT` while BUSY. The
statement holds for every value of the draws. -/
def Obligations.BufferReads : Prop :=
  ∀ (s : State) (a : Nat),
    (a < s.inSize.toNat → ∃ b : Byte, hostOp (.read .inBuf 1 a) s = .next { s with rdata := b.setWidth 32, draws := s.draws + 1 } ∧
      (∀ c, Memory.read s.inBuf a = some c → b = c) ∧ (Memory.read s.inBuf a = none → b = Config.freeByte s.draws)) ∧
    (a < s.outSize.toNat → ∃ b : Byte, hostOp (hostRB a) s = .next { s with rdata := b.setWidth 32, draws := s.draws + 1 } ∧
      (s.phase = .idle → ∀ c, Memory.read s.outBuf a = some c → b = c) ∧
      (s.phase = .busy ∨ Memory.read s.outBuf a = none → b = Config.freeByte s.draws))

/-- R38, R39: a byte written to a buffer while IDLE is what that address then holds, and every other byte keeps its value. -/
def Obligations.BufferWrites : Prop :=
  ∀ (s : State) (a : Nat) (b : Byte), s.phase = .idle → s.rst = false →
    (a < s.inSize.toNat → ∃ t, hostOp (hostWB a b) s = .next t ∧ Memory.read t.inBuf a = some b ∧
      (∀ x, x ≠ a → Memory.read t.inBuf x = Memory.read s.inBuf x) ∧ t = { s with inBuf := t.inBuf }) ∧
    (a < s.outSize.toNat → ∃ t, hostOp (.write .outBuf 1 a (b.setWidth 32)) s = .next t ∧ Memory.read t.outBuf a = some b ∧
      (∀ x, x ≠ a → Memory.read t.outBuf x = Memory.read s.outBuf x) ∧ t = { s with outBuf := t.outBuf })

/-- R341: what a host reads right after reset, and that no buffer byte holds a defined value. -/
def Obligations.ResetValues : Prop :=
  readReg State.reset .id = 0x48554631 ∧ readReg State.reset .ctrl = 0 ∧ readReg State.reset .cmd = 0 ∧
  readReg State.reset .status = 0 ∧ readReg State.reset .inLen = 0 ∧ readReg State.reset .outLen = 0 ∧
  readReg State.reset .syms = 0 ∧ readReg State.reset .totalLo = 0 ∧ readReg State.reset .totalHi = 0 ∧
  readReg State.reset .resid = 0 ∧ readReg State.reset .inSizeR = Config.inSize ∧
  readReg State.reset .outSizeR = Config.outSize ∧ readReg State.reset .reserved = 0 ∧
  State.reset.phase = .idle ∧ irq State.reset = false ∧
  (∀ a, Memory.read State.reset.inBuf a = none ∧ Memory.read State.reset.outBuf a = none) ∧
  1 ≤ Config.inSize.toNat ∧ 1 ≤ Config.outSize.toNat

/-- R340: asserting `rst`, and releasing it, resets the block and abandons a running command. While it is high a write leaves no trace
(DEDUCED, log 10). -/
def Obligations.RstResetsTheBlock : Prop :=
  (∀ (s : State) (level : Bool), level = true ∨ s.rst = true →
    ∃ t, hostOp (.rst level) s = .next t ∧ t.rst = level ∧
      (∀ r, r ≠ .inSizeR → r ≠ .outSizeR → readReg t r = readReg State.reset r) ∧
      t.inSize = s.inSize ∧ t.outSize = s.outSize ∧ t.phase = .idle ∧ irq t = false ∧
      ∀ a, Memory.read t.inBuf a = none ∧ Memory.read t.outBuf a = none) ∧
  (∀ (s : State) (space : Space) (width offset : Nat) (v : Word), s.rst = true → s.phase = .idle →
    HostOp.admitted s (.write space width offset v) = true → hostOp (.write space width offset v) s = .next s)

/-! ### Invariants of every step -/

/-- The buffers stay in canonical form and inside their sizes. -/
def Obligations.StepKeepsBuffersInv : Prop := ∀ s t : State, BuffersInv s → step s = .next t → BuffersInv t

/-- The status and result registers stay in agreement with the phase (R27, R29 to R33, R301). -/
def Obligations.StepKeepsStatusInv : Prop := ∀ s t : State, StatusInv s → step s = .next t → StatusInv t

/-- The result registers keep their ranges (R30, R32, R105). -/
def Obligations.StepKeepsResultsInv : Prop := ∀ s t : State, ResultsInv s → step s = .next t → ResultsInv t

/-- While `rst` is high the block stays reset (R340); a running command is never `NOP` (R140). -/
def Obligations.StepKeepsResetInv : Prop := ∀ s t : State, ResetInv s → step s = .next t → ResetInv t

/-- The four invariants hold right after reset. -/
def Obligations.InvariantsHoldAtReset : Prop :=
  BuffersInv State.reset ∧ StatusInv State.reset ∧ ResultsInv State.reset ∧ ResetInv State.reset

/-- R34, R35: no step changes the parameters. -/
def Obligations.StepKeepsTheParameters : Prop :=
  ∀ s t : State, step s = .next t → t.inSize = s.inSize ∧ t.outSize = s.outSize
end

