-- ==== Sys2Proof/Laws/Buffers.lean ====
section
/-! SUPPORT. The laws of the buffers: read after write, and that a write keeps the canonical form and the bounds. -/

namespace Sys2Proof.Machine

@[simp] theorem read_nil (a : Nat) : Memory.read [] a = none := rfl

theorem wf_nil : Memory.wf [] := List.Pairwise.nil

theorem reset_buffers_wf : Memory.wf State.reset.inBuf ∧ Memory.wf State.reset.outBuf := ⟨wf_nil, wf_nil⟩

/-- A written byte is what its address then reads as, whatever the buffer held. -/
@[simp] theorem read_write_same (m : Memory) (a : Nat) (b : Byte) : Memory.read (Memory.write m a b) a = some b := by
  induction m with
  | nil => simp [Memory.write, Memory.read]
  | cons c m ih =>
    obtain ⟨x, d⟩ := c
    simp only [Memory.write]
    split
    · simp [Memory.read]
    · split
      · simp [Memory.read]
      · rename_i h; simp [Memory.read, Ne.symm h, ih]

/-- A write leaves every other address alone. -/
theorem read_write_other (m : Memory) {a x : Nat} (b : Byte) (h : x ≠ a) :
    Memory.read (Memory.write m a b) x = Memory.read m x := by
  induction m with
  | nil => simp [Memory.write, Memory.read, Ne.symm h]
  | cons c m ih =>
    obtain ⟨y, d⟩ := c
    simp only [Memory.write]
    split
    · simp [Memory.read, Ne.symm h]
    · split
      · subst_vars; simp [Memory.read, Ne.symm h]
      · simp [Memory.read, ih]

/-- The addresses a write lists are the written one and those listed before. -/
theorem mem_write {m : Memory} {a : Nat} {b : Byte} {c : Host.Cell} (h : c ∈ Memory.write m a b) : c = (a, b) ∨ c ∈ m := by
  induction m with
  | nil => simpa [Memory.write] using h
  | cons d m ih =>
    obtain ⟨x, e⟩ := d
    simp only [Memory.write] at h
    split at h
    · simpa using h
    · split at h
      · rcases List.mem_cons.1 h with h | h
        · exact .inl h
        · exact .inr (List.mem_cons_of_mem _ h)
      · rcases List.mem_cons.1 h with h | h
        · exact .inr (by simp [h])
        · exact (ih h).imp id (List.mem_cons_of_mem _)

theorem wf_write {m : Memory} (a : Nat) (b : Byte) (h : Memory.wf m) : Memory.wf (Memory.write m a b) := by
  induction m with
  | nil => simp [Memory.write, Memory.wf]
  | cons d m ih =>
    obtain ⟨x, e⟩ := d
    have hx : ∀ c ∈ m, x < c.1 := (List.pairwise_cons.1 h).1
    have ht : Memory.wf m := (List.pairwise_cons.1 h).2
    simp only [Memory.write]
    split
    · rename_i hlt
      refine List.pairwise_cons.2 ⟨?_, h⟩
      rintro c hc
      rcases List.mem_cons.1 hc with rfl | hc
      · exact hlt
      · exact lt_trans hlt (hx c hc)
    · split
      · subst_vars
        exact List.pairwise_cons.2 ⟨hx, ht⟩
      · refine List.pairwise_cons.2 ⟨?_, ih ht⟩
        rintro c hc
        rcases mem_write hc with rfl | hc
        · show x < a
          omega
        · exact hx c hc

theorem within_write {m : Memory} {size : Word} {a : Nat} (b : Byte) (h : Memory.within m size) (ha : a < size.toNat) :
    Memory.within (Memory.write m a b) size := fun _ hc => (mem_write hc).elim (fun e => e ▸ ha) (h _)

theorem wf_writeBytes (bs : List Byte) : ∀ {m : Memory} (a : Nat), Memory.wf m → Memory.wf (Memory.writeBytes m a bs) := by
  induction bs with
  | nil => exact fun _ h => h
  | cons b bs ih => exact fun a h => ih (a + 1) (wf_write a b h)

theorem within_writeBytes {size : Word} (bs : List Byte) : ∀ {m : Memory} (a : Nat), Memory.within m size →
    a + bs.length ≤ size.toNat → Memory.within (Memory.writeBytes m a bs) size := by
  induction bs with
  | nil => exact fun _ h _ => h
  | cons b bs ih =>
    intro m a h ha
    simp only [List.length_cons] at ha
    exact ih (a + 1) (within_write b h (by omega)) (by omega)

/-- Everything a run of byte stores does: the bytes written read as written, and every other address as before. -/
theorem read_writeBytes (bs : List Byte) : ∀ (m : Memory) (a x : Nat),
    Memory.read (Memory.writeBytes m a bs) x =
      if a ≤ x ∧ x < a + bs.length then bs[x - a]? else Memory.read m x := by
  induction bs with
  | nil => intro m a x; simp [Memory.writeBytes, Nat.not_lt.2]
  | cons b bs ih =>
    intro m a x
    simp only [Memory.writeBytes, ih, List.length_cons]
    by_cases h : x = a
    · subst h; simp
    · rw [read_write_other m b h]
      by_cases h2 : a + 1 ≤ x ∧ x < a + 1 + bs.length
      · rw [if_pos h2, if_pos (by omega), show x - a = (x - (a + 1)) + 1 by omega, List.getElem?_cons_succ]
      · rw [if_neg h2, if_neg (by omega)]

/-- A byte that is listed reads as itself at every draw. -/
theorem byteAt_of_read {m : Memory} {a : Nat} {b : Byte} (h : Memory.read m a = some b) (k : Nat) : Memory.byteAt m a k = b := by
  simp [Memory.byteAt, h]

/-- The bytes a command computes from, where the host wrote them all. -/
theorem inSnapshot_of_holds {s : State} {bs : List Byte} (h : ∀ a, a < bs.length → Memory.read s.inBuf a = bs[a]?) : inSnapshot s bs.length = bs := by
  refine List.ext_getElem? fun a => ?_
  by_cases ha : a < bs.length
  · have hb : Memory.read s.inBuf a = some bs[a] := by rw [h a ha, List.getElem?_eq_getElem ha]
    simp [inSnapshot, ha, byteAt_of_read hb]
  · simp [inSnapshot, ha]

@[simp] theorem inSnapshot_length (s : State) (n : Nat) : (inSnapshot s n).length = n := by simp [inSnapshot]

end Sys2Proof.Machine
end

