-- ==== Sys2Proof/Laws/Codec.lean ====
section
/-! SUPPORT. The laws of the codec's stages: frequency analysis, the tree builder, the bit-packer, the parser and the walk, each once. -/

namespace Sys2Proof.Machine

/-! ### Bytes and bits -/

@[simp] theorem bits8_length (v : Byte) : (bits8 v).length = 8 := rfl

@[simp] theorem be32enc_length (v : Word) : (be32enc v).length = 4 := rfl

/-! ### Frequency analysis (R170, R171) -/

theorem frequencyOf_toNat {data : List Byte} (h : data.length < 2 ^ 32) (s : Byte) : (frequencyOf data s).toNat = data.count s := by
  have := List.count_le_length (a := s) (l := data)
  simp only [frequencyOf, BitVec.toNat_ofNat]
  omega

theorem entryList_length_le (freq : Byte → Word) : (entryList freq).length ≤ 256 :=
  (List.length_filterMap_le _ _).trans (by simp [allSymbols])

/-! ### The tree builder (R181 to R186) -/

@[simp] theorem seeds_length (es : List Entry) : ∀ i, (seeds es i).length = es.length := by
  induction es with
  | nil => exact fun _ => rfl
  | cons e es ih => exact fun i => congrArg (· + 1) (ih (i + 1))

/-- `extract-min` keeps every node of the queue. -/
theorem extractMin_perm (ts : List Tree) : ∀ t, ((extractMin t ts).1 :: (extractMin t ts).2).Perm (t :: ts) := by
  induction ts with
  | nil => exact fun t => .refl _
  | cons u us ih =>
    intro t
    simp only [extractMin]
    split
    · exact .refl _
    · exact (List.Perm.swap t (extractMin u us).1 (extractMin u us).2).trans ((ih u).cons t)

theorem extractMin_length (t : Tree) (ts : List Tree) : (extractMin t ts).2.length = ts.length := by
  simpa using (extractMin_perm ts t).length_eq

/-- What the merge loop keeps: a quantity `f` of the queue that a merge does not change is `f` of the root. -/
theorem mergeLoop_keeps {α : Type} (f : List Tree → α) (hp : ∀ x y, x.Perm y → f x = f y)
    (hm : ∀ a b seq rest, f (mergeNodes a b seq :: rest) = f (a :: b :: rest)) :
    ∀ (ts : List Tree) (seq : Nat) (t : Tree), f [mergeLoop ts.length seq t ts] = f (t :: ts) := by
  suffices h : ∀ (k : Nat) (ts : List Tree) (seq : Nat) (t : Tree), ts.length = k → f [mergeLoop k seq t ts] = f (t :: ts) from
    fun ts seq t => h ts.length ts seq t rfl
  intro k
  induction k with
  | zero => intro ts seq t hl; rw [List.length_eq_zero_iff.1 hl]; rfl
  | succ k ih =>
    intro ts seq t hl
    have hp1 := extractMin_perm ts t
    have hl1 := extractMin_length t ts
    simp only [mergeLoop]
    generalize extractMin t ts = a at hp1 hl1 ⊢
    obtain ⟨a, rest⟩ := a
    cases rest with
    | nil => simp [hl] at hl1
    | cons v vs =>
      have hp2 := extractMin_perm vs v
      have hl2 := extractMin_length v vs
      simp only at hl1 ⊢
      generalize extractMin v vs = b at hp2 hl2 ⊢
      obtain ⟨b, rest⟩ := b
      simp only at hl2 hp2 hp1 ⊢
      rw [ih rest (seq + 1) (mergeNodes a b seq) (by simp at hl1; omega), hm]
      exact hp _ _ ((hp2.cons a).trans hp1)

/-- The same for the built tree, over its leaves. -/
theorem buildTree_keeps {α : Type} (f : List Tree → α) (hp : ∀ x y, x.Perm y → f x = f y)
    (hm : ∀ a b seq rest, f (mergeNodes a b seq :: rest) = f (a :: b :: rest)) {es : List Entry} (h : es ≠ []) :
    f [buildTree es] = f (seeds es 0) := by
  unfold buildTree
  cases hs : seeds es 0 with
  | nil => exact absurd (by simpa using congrArg List.length hs) h
  | cons t ts => exact mergeLoop_keeps f hp hm ts es.length t

/-- The root is a leaf only when there is one entry (R184, R185). -/
theorem mergeLoop_isNode (k seq : Nat) (t v : Tree) (vs : List Tree) (hk : vs.length = k) :
    ∃ w l r q, mergeLoop (k + 1) seq t (v :: vs) = .node w l r q := by
  induction k generalizing seq t v vs with
  | zero =>
    have hl := extractMin_length t (v :: vs)
    simp only [mergeLoop]
    generalize extractMin t (v :: vs) = a at hl ⊢
    obtain ⟨a, _ | ⟨x, xs⟩⟩ := a
    · simp at hl
    · exact ⟨_, _, _, _, rfl⟩
  | succ k ih =>
    have hl := extractMin_length t (v :: vs)
    rw [mergeLoop]
    generalize extractMin t (v :: vs) = a at hl ⊢
    obtain ⟨a, _ | ⟨x, xs⟩⟩ := a
    · simp at hl
    · have hl2 := extractMin_length x xs
      simp only at hl ⊢
      generalize extractMin x xs = b at hl2 ⊢
      obtain ⟨b, _ | ⟨y, ys⟩⟩ := b
      · simp at hl hl2; omega
      · exact ih _ _ _ _ (by simp at hl hl2; omega)

theorem buildTree_isNode (e d : Entry) (es : List Entry) : ∃ w l r q, buildTree (e :: d :: es) = .node w l r q := by
  have h := mergeLoop_isNode es.length (e :: d :: es).length (.leaf e.sym e.freq.toNat 0) (.leaf d.sym d.freq.toNat 1)
    (seeds es 2) (seeds_length es 2)
  simpa [buildTree, seeds] using h

theorem buildTree_single (e : Entry) : buildTree [e] = .leaf e.sym e.freq.toNat 0 := rfl

/-! ### The code table (R200) -/

theorem paths_fst (t : Tree) : ∀ p, (t.paths p).map Prod.fst = t.symbols := by
  induction t with
  | leaf s w q => exact fun _ => rfl
  | node w l r q ihl ihr => intro p; simp [Tree.paths, Tree.symbols, ihl, ihr]

theorem codeTable_fst (t : Tree) : (codeTable t).map Prod.fst = t.symbols := by
  cases t with
  | leaf s w q => rfl
  | node w l r q => exact paths_fst _ []

/-! ### The bit-packer (R221, R222) -/

/-- Appending the codes symbol by symbol is appending the whole bit string. -/
theorem appendSymbols_eq (cs : Codes) (data : List Byte) : ∀ p, appendSymbols cs data p = (symbolBits cs data).foldl appendBit p := by
  induction data with
  | nil => exact fun _ => rfl
  | cons s data ih =>
    intro p
    simp only [symbolBits, List.flatMap_cons, List.foldl_append]
    exact ih _

/-- Between two appends the buffer never holds 8 bits. -/
theorem appendBit_buf_lt {p : Packer} (b : Bool) (h : p.buf.length < 8) : (appendBit p b).buf.length < 8 := by
  simp only [appendBit]
  split
  · simp; omega
  · simp_all; omega

theorem foldl_appendBit_buf_lt (bits : Bits) : ∀ p : Packer, p.buf.length < 8 → (bits.foldl appendBit p).buf.length < 8 := by
  induction bits with
  | nil => exact fun _ h => h
  | cons b bits ih => exact fun p h => ih _ (appendBit_buf_lt b h)

/-- Every bit appended is either emitted, eight to a byte, or in the buffer. -/
theorem foldl_appendBit_length (bits : Bits) : ∀ p : Packer, p.buf.length < 8 →
    8 * (bits.foldl appendBit p).out.length + (bits.foldl appendBit p).buf.length =
      8 * p.out.length + p.buf.length + bits.length := by
  induction bits with
  | nil => intro p _; rfl
  | cons b bits ih =>
    intro p h
    rw [List.foldl_cons, ih _ (appendBit_buf_lt b h)]
    simp only [appendBit]
    split <;> simp_all <;> omega

/-! ### The parser (R250) -/

/-- What the entry loop consumes and returns when it succeeds. -/
theorem parseEntries_ok (n : Nat) : ∀ (rest : List Byte) (es : List Entry) {es' : List Entry} {tail : List Byte},
    parseEntries n rest es = .ok (es', tail) →
      es'.length = es.length + n ∧ rest.length = 5 * n + tail.length ∧ es <+: es' := by
  induction n with
  | zero => intro rest es es' tail h; cases h; simp
  | succ n ih =>
    intro rest es es' tail h
    match rest, h with
    | s :: b0 :: b1 :: b2 :: b3 :: rest, h =>
      simp only [parseEntries] at h
      split at h
      · cases h
      · split at h
        · cases h
        · obtain ⟨h1, h2, h3⟩ := ih _ _ h
          refine ⟨by simp at h1; omega, by simp; omega, (List.prefix_append es _).trans h3⟩
    | [], h => cases h
    | [_], h => cases h
    | [_, _], h => cases h
    | [_, _, _], h => cases h
    | [_, _, _, _], h => cases h

/-- The entries read by the loop have nonzero frequencies and distinct symbols, if those before had. -/
theorem parseEntries_good (n : Nat) : ∀ (rest : List Byte) (es : List Entry) {es' : List Entry} {tail : List Byte},
    parseEntries n rest es = .ok (es', tail) → (es.map Entry.sym).Nodup → (∀ e ∈ es, 1 ≤ e.freq.toNat) →
      (es'.map Entry.sym).Nodup ∧ ∀ e ∈ es', 1 ≤ e.freq.toNat := by
  induction n with
  | zero => intro rest es es' tail h; cases h; exact fun a b => ⟨a, b⟩
  | succ n ih =>
    intro rest es es' tail h hd hf
    match rest, h with
    | s :: b0 :: b1 :: b2 :: b3 :: rest, h =>
      simp only [parseEntries] at h
      split at h
      · cases h
      · rename_i hz
        split at h
        · cases h
        · rename_i hs
          refine ih _ _ h ?_ ?_
          · simp only [List.any_eq_true, beq_iff_eq, not_exists, not_and] at hs
            rw [List.map_append, List.nodup_append]
            refine ⟨hd, by simp, ?_⟩
            rintro x hx y hy rfl
            obtain ⟨e, he, rfl⟩ := List.mem_map.1 hx
            exact hs e he (by simpa using hy)
          · intro e he
            rcases List.mem_append.1 he with he | he
            · exact hf e he
            · have : be32 b0 b1 b2 b3 ≠ 0 := hz
              rw [List.mem_singleton.1 he]
              exact Nat.one_le_iff_ne_zero.2 fun h0 => this (BitVec.eq_of_toNat_eq (by simpa using h0))
    | [], h => cases h
    | [_], h => cases h
    | [_, _], h => cases h
    | [_, _, _], h => cases h
    | [_, _, _, _], h => cases h

/-- A container that parses meets the tree builder's contract, and its residual length is at most 8 (R105, R250). -/
theorem parseContainer_ok {c : List Byte} {k : Container} (h : parseContainer c = .ok k) :
    BuildContract k.entries ∧ k.resid ≤ 8 := by
  match c, h with
  | l0 :: l1 :: l2 :: l3 :: rest, h =>
    simp only [parseContainer] at h
    split at h
    · cases h
    · rename_i h0
      split at h
      · cases h
      · rename_i h256
        split at h
        · cases h
        · split at h
          · cases h
          · rename_i es tail hes
            split at h
            · cases h
            · simp only [parseTrailer] at h
              split at h
              · cases h
              · rename_i hr
                cases h
                obtain ⟨hl, _, _⟩ := parseEntries_ok _ _ _ hes
                obtain ⟨hd, hf⟩ := parseEntries_good _ _ _ hes (by simp) (by simp)
                simp only [List.length_nil, Nat.zero_add] at hl
                exact ⟨⟨by simp only [hl]; omega, by simp only [hl]; omega, hd, hf⟩, by simpa using hr⟩
  | [], h => cases h
  | [_], h => cases h
  | [_, _], h => cases h
  | [_, _, _], h => cases h

/-! ### The walk (R255, R256) -/

/-- A walk over two strings is the walk over the first, then over the second. -/
theorem walkBits_append (root : Tree) (total : Nat) (m n : Bits) : ∀ w,
    walkBits root total (m ++ n) w =
      match walkBits root total m w with
      | .error e => .error e
      | .ok w' => walkBits root total n w' := by
  induction m with
  | nil => exact fun _ => rfl
  | cons b m ih =>
    intro w
    simp only [List.cons_append, walkBits]
    cases walkBit root total w b with
    | error e => rfl
    | ok w' => exact ih w'

/-- Everything one bit of the walk can do: one more symbol emitted, below the total, or none. -/
theorem walkBit_ok {root : Tree} {total : Nat} {w w' : WalkState} {b : Bool} (h : walkBit root total w b = .ok w') :
    w.dcount ≠ total ∧
      ((w'.dcount = w.dcount + 1 ∧ (∃ s, w'.out = w.out ++ [s] ∧ w'.rem = remDec w.rem s)) ∨
        (w'.dcount = w.dcount ∧ w'.out = w.out ∧ w'.rem = w.rem)) := by
  cases root with
  | leaf s v q =>
    simp only [walkBit, walkBitSingle] at h
    split at h
    · cases h
    · split at h
      · cases h
      · cases h; exact ⟨‹_›, .inl ⟨rfl, s, rfl, rfl⟩⟩
  | node v l r q =>
    simp only [walkBit, walkBitTree] at h
    split at h
    · cases h
    · split at h
      · split at h
        · cases h
        · cases h; exact ⟨‹_›, .inl ⟨rfl, _, rfl, rfl⟩⟩
      · cases h; exact ⟨‹_›, .inr ⟨rfl, rfl, rfl⟩⟩

/-- The walk counts what it emits and never passes the total. -/
theorem walkBits_count (root : Tree) (total : Nat) (m : Bits) : ∀ {w w' : WalkState}, walkBits root total m w = .ok w' →
    w.out.length = w.dcount → w.dcount ≤ total → w'.out.length = w'.dcount ∧ w'.dcount ≤ total := by
  induction m with
  | nil => intro w w' h; cases h; exact fun a b => ⟨a, b⟩
  | cons b m ih =>
    intro w w' h ho ht
    simp only [walkBits] at h
    cases hb : walkBit root total w b with
    | error e => rw [hb] at h; cases h
    | ok v =>
      rw [hb] at h
      obtain ⟨hne, ⟨hd, s, hs, _⟩ | ⟨hd, hs, _⟩⟩ := walkBit_ok hb
      · exact ih h (by simp [hs, hd, ho]) (by omega)
      · exact ih h (by rw [hs, hd, ho]) (by omega)

/-- A walk that succeeds has emitted exactly `T` symbols (R252, R255). -/
theorem walk_ok_length {root : Tree} {es : List Entry} {m : Bits} {total : Nat} {w : WalkState}
    (h : walk root es m total = .ok w) : w.dcount = total ∧ w.out.length = total := by
  unfold walk at h
  cases hb : walkBits root total m (walkStart root es) with
  | error e => rw [hb] at h; cases h
  | ok v =>
    rw [hb] at h
    simp only at h
    split at h
    · cases h
    · cases h
      obtain ⟨h1, h2⟩ := walkBits_count root total m hb rfl (Nat.zero_le _)
      omega

/-- What a `DECODE` that succeeds has found (R143). -/
theorem decodeContainer_ok {outSize : Nat} {c : List Byte} {k : Container} {w : WalkState}
    (h : decodeContainer outSize c = .ok (k, w)) :
    parseContainer c = .ok k ∧ totalCount k.entries ≤ outSize ∧
      walk (buildTree k.entries) k.entries (meaningfulBits k) (totalCount k.entries) = .ok w ∧
      w.out.length = totalCount k.entries := by
  unfold decodeContainer at h
  cases hp : parseContainer c with
  | error e => rw [hp] at h; cases h
  | ok k' =>
    rw [hp] at h
    simp only at h
    split at h
    · cases h
    · cases hw : walk (buildTree k'.entries) k'.entries (meaningfulBits k') (totalCount k'.entries) with
      | error e => rw [hw] at h; cases h
      | ok w' =>
        rw [hw] at h
        cases h
        exact ⟨rfl, by omega, hw, (walk_ok_length hw).2⟩

end Sys2Proof.Machine
end

