-- ==== Sys2Proof/Laws/Decode.lean ====
section
/-! SUPPORT. The decoder in closed form, and what a command word written to `CMD` does, by its value. -/

namespace Sys2Proof.Machine

/-- The decoder, by the value of the word (R101, R102). -/
theorem decodeWord_eq (w : Word) :
    decodeWord w =
      if w = 0 then .ok .nop else if w = 1 then .ok .encode else if w = 2 then .ok .decode
      else if commandMbz w = 0 then .error .illegalOp else .error .mustBeZero := by
  have hm : ∀ p : Word, w ≠ p → (w &&& 0xFFFFFFFF == p) = false := by
    intro p hp
    rw [show (0xFFFFFFFF : Word) = BitVec.allOnes 32 by decide, BitVec.and_allOnes]
    exact beq_eq_false_iff_ne.2 hp
  by_cases h0 : w = 0
  · subst h0; rfl
  by_cases h1 : w = 1
  · subst h1; rfl
  by_cases h2 : w = 2
  · subst h2; rfl
  rw [if_neg h0, if_neg h1, if_neg h2]
  unfold decodeWord commandTable
  rw [List.find?_cons_of_neg (by rw [hm _ h0]; decide), List.find?_cons_of_neg (by rw [hm _ h1]; decide),
    List.find?_cons_of_neg (by rw [hm _ h2]; decide), List.find?_nil]

theorem decodeWord_nop_iff (w : Word) : decodeWord w = .ok .nop ↔ w = 0 := by
  constructor
  · intro h
    by_contra h0
    rw [decodeWord_eq, if_neg h0] at h
    split at h
    · cases h
    · split at h
      · cases h
      · split at h <;> cases h
  · rintro rfl; rfl

/-- A write of a word other than `NOP` to `CMD` while IDLE accepts it (R140). -/
theorem writeCmd_accepts {s : State} {v : Word} (hb : s.busy = false) (hv : v ≠ 0) : writeCmd v s = .next (s.accept v) := by
  unfold writeCmd
  rw [hb]
  have h : decodeWord v ≠ .ok .nop := fun e => hv ((decodeWord_nop_iff v).1 e)
  generalize decodeWord v = d at h
  match d, h with
  | .ok .nop, h => exact absurd rfl h
  | .ok .encode, _ => rfl
  | .ok .decode, _ => rfl
  | .error _, _ => rfl

/-- A write of `NOP` to `CMD` has no effect, in either phase (R141, R146). -/
theorem writeCmd_nop (s : State) : writeCmd 0 s = .next s := by
  unfold writeCmd
  split
  · rfl
  · rfl

/-- A write to `CMD` is ignored while BUSY (R146). -/
theorem writeCmd_busy {s : State} (v : Word) (hb : s.busy = true) : writeCmd v s = .next s := if_pos hb

/-- The step while IDLE with a transaction pending. -/
theorem step_idle {s : State} {op : HostOp} {rest : List HostOp} (hp : s.phase = .idle) (hh : s.host = op :: rest) :
    step s = hostOp op { s with host := rest } := by
  simp [step, blockStep, hp, hostTurn, hh]

/-- The step while BUSY with a turn left to the host and a transaction pending. -/
theorem step_busy {s : State} {op : HostOp} {rest : List HostOp} {k : Nat} (hp : s.phase = .busy) (hl : s.latency = k + 1)
    (hh : s.host = op :: rest) : step s = hostOp op { s with host := rest, latency := k } := by
  simp [step, blockStep, hp, hl, hostTurn, hh]

/-- The step while BUSY with no turn left to the host. -/
theorem step_engine {s : State} (hp : s.phase = .busy) (hl : s.latency = 0) : step s = engineTurn s := by
  simp [step, blockStep, hp, hl]

/-- The step while IDLE with nothing pending (R322). -/
theorem step_idle_none {s : State} (hp : s.phase = .idle) (hh : s.host = []) : step s = .next s := by
  simp [step, blockStep, hp, hostTurn, hh]

/-- The step while BUSY with a turn left to the host and nothing pending. -/
theorem step_busy_none {s : State} {k : Nat} (hp : s.phase = .busy) (hl : s.latency = k + 1) (hh : s.host = []) :
    step s = .next { s with latency := k } := by
  simp [step, blockStep, hp, hl, hostTurn, hh]

@[simp] theorem busy_eq (s : State) : s.busy = decide (s.phase = .busy) := by
  unfold State.busy
  cases s.phase <;> rfl

/-- An admitted register write while `rst` is low is a write of the register (R23, R61). -/
theorem hostOp_writeReg {s : State} {r : Reg} {offset : Nat} (v : Word) (hr : s.rst = false) (ho : regAt offset = some r) :
    hostOp (hostWR offset v) s = writeReg r v s := by
  simp [hostOp, hostWR, hostWrite, regOperand, ho, hr]

/-- A register read, at any time (R23, R61). -/
theorem hostOp_readReg {s : State} {r : Reg} {offset : Nat} (ho : regAt offset = some r) :
    hostOp (hostRD offset) s = .next { s with rdata := readReg s r } := by
  simp [hostOp, hostRD, hostRead, regOperand, ho]

end Sys2Proof.Machine
end

