-- ==== Sys2Proof/Laws/PerInstr.lean ====
section
/-! SUPPORT. Statements made per command. `CommandFormat`: the word of a command has `MBZ` zero and the command's own `OP`
(`30_encoding.md` R100, R101). -/

namespace Sys2Proof.Laws

/-- The `OP` field of each command (R101). -/
def CommandFormat.opOf : Instr → BitVec 8
  | .nop => 0x00
  | .encode => 0x01
  | .decode => 0x02

/-- The fields of a command's word (R100). -/
def CommandFormat.Statement (i : Instr) : Prop :=
  commandMbz (encode i) = 0 ∧ commandOp (encode i) = CommandFormat.opOf i

theorem CommandFormat.nop : CommandFormat.Statement .nop := ⟨rfl, rfl⟩

theorem CommandFormat.encode : CommandFormat.Statement .encode := ⟨rfl, rfl⟩

theorem CommandFormat.decode : CommandFormat.Statement .decode := ⟨rfl, rfl⟩

end Sys2Proof.Laws
end

