-- ==== Sys2Proof/Laws/State.lean ====
section
/-! SUPPORT. One lemma per field per update of State, so that no proof unfolds an update. -/

namespace Sys2Proof.Machine

/-! ### `drew` -/

@[simp] theorem drew_inSize (s : State) (k : Nat) : (s.drew k).inSize = s.inSize := rfl
@[simp] theorem drew_outSize (s : State) (k : Nat) : (s.drew k).outSize = s.outSize := rfl
@[simp] theorem drew_rst (s : State) (k : Nat) : (s.drew k).rst = s.rst := rfl
@[simp] theorem drew_phase (s : State) (k : Nat) : (s.drew k).phase = s.phase := rfl
@[simp] theorem drew_command (s : State) (k : Nat) : (s.drew k).command = s.command := rfl
@[simp] theorem drew_ctrlIE (s : State) (k : Nat) : (s.drew k).ctrlIE = s.ctrlIE := rfl
@[simp] theorem drew_done (s : State) (k : Nat) : (s.drew k).done = s.done := rfl
@[simp] theorem drew_err (s : State) (k : Nat) : (s.drew k).err = s.err := rfl
@[simp] theorem drew_errCode (s : State) (k : Nat) : (s.drew k).errCode = s.errCode := rfl
@[simp] theorem drew_inLen (s : State) (k : Nat) : (s.drew k).inLen = s.inLen := rfl
@[simp] theorem drew_outLen (s : State) (k : Nat) : (s.drew k).outLen = s.outLen := rfl
@[simp] theorem drew_syms (s : State) (k : Nat) : (s.drew k).syms = s.syms := rfl
@[simp] theorem drew_total (s : State) (k : Nat) : (s.drew k).total = s.total := rfl
@[simp] theorem drew_resid (s : State) (k : Nat) : (s.drew k).resid = s.resid := rfl
@[simp] theorem drew_inBuf (s : State) (k : Nat) : (s.drew k).inBuf = s.inBuf := rfl
@[simp] theorem drew_outBuf (s : State) (k : Nat) : (s.drew k).outBuf = s.outBuf := rfl
@[simp] theorem drew_engine (s : State) (k : Nat) : (s.drew k).engine = s.engine := rfl
@[simp] theorem drew_host (s : State) (k : Nat) : (s.drew k).host = s.host := rfl
@[simp] theorem drew_rdata (s : State) (k : Nat) : (s.drew k).rdata = s.rdata := rfl
@[simp] theorem drew_latency (s : State) (k : Nat) : (s.drew k).latency = s.latency := rfl
@[simp] theorem drew_draws (s : State) (k : Nat) : (s.drew k).draws = s.draws + k := rfl

/-! ### `beginCommand` -/

@[simp] theorem beginCommand_inSize (s : State) : (s.beginCommand).inSize = s.inSize := rfl
@[simp] theorem beginCommand_outSize (s : State) : (s.beginCommand).outSize = s.outSize := rfl
@[simp] theorem beginCommand_rst (s : State) : (s.beginCommand).rst = s.rst := rfl
@[simp] theorem beginCommand_phase (s : State) : (s.beginCommand).phase = .busy := rfl
@[simp] theorem beginCommand_command (s : State) : (s.beginCommand).command = s.command := rfl
@[simp] theorem beginCommand_ctrlIE (s : State) : (s.beginCommand).ctrlIE = s.ctrlIE := rfl
@[simp] theorem beginCommand_done (s : State) : (s.beginCommand).done = false := rfl
@[simp] theorem beginCommand_err (s : State) : (s.beginCommand).err = false := rfl
@[simp] theorem beginCommand_errCode (s : State) : (s.beginCommand).errCode = 0 := rfl
@[simp] theorem beginCommand_inLen (s : State) : (s.beginCommand).inLen = s.inLen := rfl
@[simp] theorem beginCommand_outLen (s : State) : (s.beginCommand).outLen = 0 := rfl
@[simp] theorem beginCommand_syms (s : State) : (s.beginCommand).syms = 0 := rfl
@[simp] theorem beginCommand_total (s : State) : (s.beginCommand).total = 0 := rfl
@[simp] theorem beginCommand_resid (s : State) : (s.beginCommand).resid = 0 := rfl
@[simp] theorem beginCommand_inBuf (s : State) : (s.beginCommand).inBuf = s.inBuf := rfl
@[simp] theorem beginCommand_outBuf (s : State) : (s.beginCommand).outBuf = s.outBuf := rfl
@[simp] theorem beginCommand_engine (s : State) : (s.beginCommand).engine = s.engine := rfl
@[simp] theorem beginCommand_host (s : State) : (s.beginCommand).host = s.host := rfl
@[simp] theorem beginCommand_rdata (s : State) : (s.beginCommand).rdata = s.rdata := rfl
@[simp] theorem beginCommand_latency (s : State) : (s.beginCommand).latency = s.latency := rfl
@[simp] theorem beginCommand_draws (s : State) : (s.beginCommand).draws = s.draws := rfl

/-! ### `accept` -/

@[simp] theorem accept_inSize (v : Word) (s : State) : (s.accept v).inSize = s.inSize := rfl
@[simp] theorem accept_outSize (v : Word) (s : State) : (s.accept v).outSize = s.outSize := rfl
@[simp] theorem accept_rst (v : Word) (s : State) : (s.accept v).rst = s.rst := rfl
@[simp] theorem accept_phase (v : Word) (s : State) : (s.accept v).phase = .busy := rfl
@[simp] theorem accept_command (v : Word) (s : State) : (s.accept v).command = v := rfl
@[simp] theorem accept_ctrlIE (v : Word) (s : State) : (s.accept v).ctrlIE = s.ctrlIE := rfl
@[simp] theorem accept_done (v : Word) (s : State) : (s.accept v).done = false := rfl
@[simp] theorem accept_err (v : Word) (s : State) : (s.accept v).err = false := rfl
@[simp] theorem accept_errCode (v : Word) (s : State) : (s.accept v).errCode = 0 := rfl
@[simp] theorem accept_inLen (v : Word) (s : State) : (s.accept v).inLen = s.inLen := rfl
@[simp] theorem accept_outLen (v : Word) (s : State) : (s.accept v).outLen = 0 := rfl
@[simp] theorem accept_syms (v : Word) (s : State) : (s.accept v).syms = 0 := rfl
@[simp] theorem accept_total (v : Word) (s : State) : (s.accept v).total = 0 := rfl
@[simp] theorem accept_resid (v : Word) (s : State) : (s.accept v).resid = 0 := rfl
@[simp] theorem accept_inBuf (v : Word) (s : State) : (s.accept v).inBuf = s.inBuf := rfl
@[simp] theorem accept_outBuf (v : Word) (s : State) : (s.accept v).outBuf = s.outBuf := rfl
@[simp] theorem accept_engine (v : Word) (s : State) : (s.accept v).engine = s.engine := rfl
@[simp] theorem accept_host (v : Word) (s : State) : (s.accept v).host = s.host := rfl
@[simp] theorem accept_rdata (v : Word) (s : State) : (s.accept v).rdata = s.rdata := rfl
@[simp] theorem accept_latency (v : Word) (s : State) : (s.accept v).latency = Config.freeLatency s.draws v s.inLen s.inBuf := rfl
@[simp] theorem accept_draws (v : Word) (s : State) : (s.accept v).draws = s.draws + 1 := rfl

/-! ### `finishOk` -/

@[simp] theorem finishOk_inSize (s : State) : (s.finishOk).inSize = s.inSize := rfl
@[simp] theorem finishOk_outSize (s : State) : (s.finishOk).outSize = s.outSize := rfl
@[simp] theorem finishOk_rst (s : State) : (s.finishOk).rst = s.rst := rfl
@[simp] theorem finishOk_phase (s : State) : (s.finishOk).phase = .idle := rfl
@[simp] theorem finishOk_command (s : State) : (s.finishOk).command = s.command := rfl
@[simp] theorem finishOk_ctrlIE (s : State) : (s.finishOk).ctrlIE = s.ctrlIE := rfl
@[simp] theorem finishOk_done (s : State) : (s.finishOk).done = true := rfl
@[simp] theorem finishOk_err (s : State) : (s.finishOk).err = s.err := rfl
@[simp] theorem finishOk_errCode (s : State) : (s.finishOk).errCode = s.errCode := rfl
@[simp] theorem finishOk_inLen (s : State) : (s.finishOk).inLen = s.inLen := rfl
@[simp] theorem finishOk_outLen (s : State) : (s.finishOk).outLen = s.outLen := rfl
@[simp] theorem finishOk_syms (s : State) : (s.finishOk).syms = s.syms := rfl
@[simp] theorem finishOk_total (s : State) : (s.finishOk).total = s.total := rfl
@[simp] theorem finishOk_resid (s : State) : (s.finishOk).resid = s.resid := rfl
@[simp] theorem finishOk_inBuf (s : State) : (s.finishOk).inBuf = s.inBuf := rfl
@[simp] theorem finishOk_outBuf (s : State) : (s.finishOk).outBuf = s.outBuf := rfl
@[simp] theorem finishOk_engine (s : State) : (s.finishOk).engine = s.engine := rfl
@[simp] theorem finishOk_host (s : State) : (s.finishOk).host = s.host := rfl
@[simp] theorem finishOk_rdata (s : State) : (s.finishOk).rdata = s.rdata := rfl
@[simp] theorem finishOk_latency (s : State) : (s.finishOk).latency = s.latency := rfl
@[simp] theorem finishOk_draws (s : State) : (s.finishOk).draws = s.draws := rfl

/-! ### `raise` -/

@[simp] theorem raise_inSize (e : CommandError) (s : State) : (s.raise e).inSize = s.inSize := rfl
@[simp] theorem raise_outSize (e : CommandError) (s : State) : (s.raise e).outSize = s.outSize := rfl
@[simp] theorem raise_rst (e : CommandError) (s : State) : (s.raise e).rst = s.rst := rfl
@[simp] theorem raise_phase (e : CommandError) (s : State) : (s.raise e).phase = .idle := rfl
@[simp] theorem raise_command (e : CommandError) (s : State) : (s.raise e).command = s.command := rfl
@[simp] theorem raise_ctrlIE (e : CommandError) (s : State) : (s.raise e).ctrlIE = s.ctrlIE := rfl
@[simp] theorem raise_done (e : CommandError) (s : State) : (s.raise e).done = true := rfl
@[simp] theorem raise_err (e : CommandError) (s : State) : (s.raise e).err = true := rfl
@[simp] theorem raise_errCode (e : CommandError) (s : State) : (s.raise e).errCode = e.code := rfl
@[simp] theorem raise_inLen (e : CommandError) (s : State) : (s.raise e).inLen = s.inLen := rfl
@[simp] theorem raise_outLen (e : CommandError) (s : State) : (s.raise e).outLen = s.outLen := rfl
@[simp] theorem raise_syms (e : CommandError) (s : State) : (s.raise e).syms = s.syms := rfl
@[simp] theorem raise_total (e : CommandError) (s : State) : (s.raise e).total = s.total := rfl
@[simp] theorem raise_resid (e : CommandError) (s : State) : (s.raise e).resid = s.resid := rfl
@[simp] theorem raise_inBuf (e : CommandError) (s : State) : (s.raise e).inBuf = s.inBuf := rfl
@[simp] theorem raise_outBuf (e : CommandError) (s : State) : (s.raise e).outBuf = [] := rfl
@[simp] theorem raise_engine (e : CommandError) (s : State) : (s.raise e).engine = Config.freeEngine s.draws := rfl
@[simp] theorem raise_host (e : CommandError) (s : State) : (s.raise e).host = s.host := rfl
@[simp] theorem raise_rdata (e : CommandError) (s : State) : (s.raise e).rdata = s.rdata := rfl
@[simp] theorem raise_latency (e : CommandError) (s : State) : (s.raise e).latency = s.latency := rfl
@[simp] theorem raise_draws (e : CommandError) (s : State) : (s.raise e).draws = s.draws + 1 := rfl

/-! ### `acknowledge` -/

@[simp] theorem acknowledge_inSize (s : State) : (s.acknowledge).inSize = s.inSize := rfl
@[simp] theorem acknowledge_outSize (s : State) : (s.acknowledge).outSize = s.outSize := rfl
@[simp] theorem acknowledge_rst (s : State) : (s.acknowledge).rst = s.rst := rfl
@[simp] theorem acknowledge_phase (s : State) : (s.acknowledge).phase = s.phase := rfl
@[simp] theorem acknowledge_command (s : State) : (s.acknowledge).command = s.command := rfl
@[simp] theorem acknowledge_ctrlIE (s : State) : (s.acknowledge).ctrlIE = s.ctrlIE := rfl
@[simp] theorem acknowledge_done (s : State) : (s.acknowledge).done = false := rfl
@[simp] theorem acknowledge_err (s : State) : (s.acknowledge).err = false := rfl
@[simp] theorem acknowledge_errCode (s : State) : (s.acknowledge).errCode = 0 := rfl
@[simp] theorem acknowledge_inLen (s : State) : (s.acknowledge).inLen = s.inLen := rfl
@[simp] theorem acknowledge_outLen (s : State) : (s.acknowledge).outLen = s.outLen := rfl
@[simp] theorem acknowledge_syms (s : State) : (s.acknowledge).syms = s.syms := rfl
@[simp] theorem acknowledge_total (s : State) : (s.acknowledge).total = s.total := rfl
@[simp] theorem acknowledge_resid (s : State) : (s.acknowledge).resid = s.resid := rfl
@[simp] theorem acknowledge_inBuf (s : State) : (s.acknowledge).inBuf = s.inBuf := rfl
@[simp] theorem acknowledge_outBuf (s : State) : (s.acknowledge).outBuf = s.outBuf := rfl
@[simp] theorem acknowledge_engine (s : State) : (s.acknowledge).engine = s.engine := rfl
@[simp] theorem acknowledge_host (s : State) : (s.acknowledge).host = s.host := rfl
@[simp] theorem acknowledge_rdata (s : State) : (s.acknowledge).rdata = s.rdata := rfl
@[simp] theorem acknowledge_latency (s : State) : (s.acknowledge).latency = s.latency := rfl
@[simp] theorem acknowledge_draws (s : State) : (s.acknowledge).draws = s.draws := rfl

/-! ### `resetBlock` -/

@[simp] theorem resetBlock_inSize (s : State) : (s.resetBlock).inSize = s.inSize := rfl
@[simp] theorem resetBlock_outSize (s : State) : (s.resetBlock).outSize = s.outSize := rfl
@[simp] theorem resetBlock_rst (s : State) : (s.resetBlock).rst = false := rfl
@[simp] theorem resetBlock_phase (s : State) : (s.resetBlock).phase = .idle := rfl
@[simp] theorem resetBlock_command (s : State) : (s.resetBlock).command = 0 := rfl
@[simp] theorem resetBlock_ctrlIE (s : State) : (s.resetBlock).ctrlIE = false := rfl
@[simp] theorem resetBlock_done (s : State) : (s.resetBlock).done = false := rfl
@[simp] theorem resetBlock_err (s : State) : (s.resetBlock).err = false := rfl
@[simp] theorem resetBlock_errCode (s : State) : (s.resetBlock).errCode = 0 := rfl
@[simp] theorem resetBlock_inLen (s : State) : (s.resetBlock).inLen = 0 := rfl
@[simp] theorem resetBlock_outLen (s : State) : (s.resetBlock).outLen = 0 := rfl
@[simp] theorem resetBlock_syms (s : State) : (s.resetBlock).syms = 0 := rfl
@[simp] theorem resetBlock_total (s : State) : (s.resetBlock).total = 0 := rfl
@[simp] theorem resetBlock_resid (s : State) : (s.resetBlock).resid = 0 := rfl
@[simp] theorem resetBlock_inBuf (s : State) : (s.resetBlock).inBuf = [] := rfl
@[simp] theorem resetBlock_outBuf (s : State) : (s.resetBlock).outBuf = [] := rfl
@[simp] theorem resetBlock_engine (s : State) : (s.resetBlock).engine = Engine.atReset := rfl
@[simp] theorem resetBlock_host (s : State) : (s.resetBlock).host = s.host := rfl
@[simp] theorem resetBlock_rdata (s : State) : (s.resetBlock).rdata = s.rdata := rfl
@[simp] theorem resetBlock_latency (s : State) : (s.resetBlock).latency = 0 := rfl
@[simp] theorem resetBlock_draws (s : State) : (s.resetBlock).draws = s.draws := rfl

/-! ### `storeEncoding` -/

@[simp] theorem storeEncoding_inSize (data : List Byte) (s : State) : (storeEncoding data s).inSize = s.inSize := rfl
@[simp] theorem storeEncoding_outSize (data : List Byte) (s : State) : (storeEncoding data s).outSize = s.outSize := rfl
@[simp] theorem storeEncoding_rst (data : List Byte) (s : State) : (storeEncoding data s).rst = s.rst := rfl
@[simp] theorem storeEncoding_phase (data : List Byte) (s : State) : (storeEncoding data s).phase = s.phase := rfl
@[simp] theorem storeEncoding_command (data : List Byte) (s : State) : (storeEncoding data s).command = s.command := rfl
@[simp] theorem storeEncoding_ctrlIE (data : List Byte) (s : State) : (storeEncoding data s).ctrlIE = s.ctrlIE := rfl
@[simp] theorem storeEncoding_done (data : List Byte) (s : State) : (storeEncoding data s).done = s.done := rfl
@[simp] theorem storeEncoding_err (data : List Byte) (s : State) : (storeEncoding data s).err = s.err := rfl
@[simp] theorem storeEncoding_errCode (data : List Byte) (s : State) : (storeEncoding data s).errCode = s.errCode := rfl
@[simp] theorem storeEncoding_inLen (data : List Byte) (s : State) : (storeEncoding data s).inLen = s.inLen := rfl
@[simp] theorem storeEncoding_outLen (data : List Byte) (s : State) : (storeEncoding data s).outLen = BitVec.ofNat 32 (encodeSize data) := rfl
@[simp] theorem storeEncoding_syms (data : List Byte) (s : State) : (storeEncoding data s).syms = BitVec.ofNat 9 (encodeEntries data).length := rfl
@[simp] theorem storeEncoding_total (data : List Byte) (s : State) : (storeEncoding data s).total = BitVec.ofNat 40 data.length := rfl
@[simp] theorem storeEncoding_resid (data : List Byte) (s : State) : (storeEncoding data s).resid = BitVec.ofNat 4 (encodeBits data % 8) := rfl
@[simp] theorem storeEncoding_inBuf (data : List Byte) (s : State) : (storeEncoding data s).inBuf = s.inBuf := rfl
@[simp] theorem storeEncoding_outBuf (data : List Byte) (s : State) : (storeEncoding data s).outBuf = Memory.writeBytes s.outBuf 0 (encodeContainer data) := rfl
@[simp] theorem storeEncoding_engine (data : List Byte) (s : State) : (storeEncoding data s).engine = encodeEngine data s.engine := rfl
@[simp] theorem storeEncoding_host (data : List Byte) (s : State) : (storeEncoding data s).host = s.host := rfl
@[simp] theorem storeEncoding_rdata (data : List Byte) (s : State) : (storeEncoding data s).rdata = s.rdata := rfl
@[simp] theorem storeEncoding_latency (data : List Byte) (s : State) : (storeEncoding data s).latency = s.latency := rfl
@[simp] theorem storeEncoding_draws (data : List Byte) (s : State) : (storeEncoding data s).draws = s.draws := rfl

/-! ### `storeDecoding` -/

@[simp] theorem storeDecoding_inSize (k : Container) (w : WalkState) (n : Nat) (s : State) : (storeDecoding k w n s).inSize = s.inSize := rfl
@[simp] theorem storeDecoding_outSize (k : Container) (w : WalkState) (n : Nat) (s : State) : (storeDecoding k w n s).outSize = s.outSize := rfl
@[simp] theorem storeDecoding_rst (k : Container) (w : WalkState) (n : Nat) (s : State) : (storeDecoding k w n s).rst = s.rst := rfl
@[simp] theorem storeDecoding_phase (k : Container) (w : WalkState) (n : Nat) (s : State) : (storeDecoding k w n s).phase = s.phase := rfl
@[simp] theorem storeDecoding_command (k : Container) (w : WalkState) (n : Nat) (s : State) : (storeDecoding k w n s).command = s.command := rfl
@[simp] theorem storeDecoding_ctrlIE (k : Container) (w : WalkState) (n : Nat) (s : State) : (storeDecoding k w n s).ctrlIE = s.ctrlIE := rfl
@[simp] theorem storeDecoding_done (k : Container) (w : WalkState) (n : Nat) (s : State) : (storeDecoding k w n s).done = s.done := rfl
@[simp] theorem storeDecoding_err (k : Container) (w : WalkState) (n : Nat) (s : State) : (storeDecoding k w n s).err = s.err := rfl
@[simp] theorem storeDecoding_errCode (k : Container) (w : WalkState) (n : Nat) (s : State) : (storeDecoding k w n s).errCode = s.errCode := rfl
@[simp] theorem storeDecoding_inLen (k : Container) (w : WalkState) (n : Nat) (s : State) : (storeDecoding k w n s).inLen = s.inLen := rfl
@[simp] theorem storeDecoding_outLen (k : Container) (w : WalkState) (n : Nat) (s : State) : (storeDecoding k w n s).outLen = BitVec.ofNat 32 (totalCount k.entries) := rfl
@[simp] theorem storeDecoding_syms (k : Container) (w : WalkState) (n : Nat) (s : State) : (storeDecoding k w n s).syms = BitVec.ofNat 9 k.entries.length := rfl
@[simp] theorem storeDecoding_total (k : Container) (w : WalkState) (n : Nat) (s : State) : (storeDecoding k w n s).total = BitVec.ofNat 40 (totalCount k.entries) := rfl
@[simp] theorem storeDecoding_resid (k : Container) (w : WalkState) (n : Nat) (s : State) : (storeDecoding k w n s).resid = BitVec.ofNat 4 k.resid := rfl
@[simp] theorem storeDecoding_inBuf (k : Container) (w : WalkState) (n : Nat) (s : State) : (storeDecoding k w n s).inBuf = s.inBuf := rfl
@[simp] theorem storeDecoding_outBuf (k : Container) (w : WalkState) (n : Nat) (s : State) : (storeDecoding k w n s).outBuf = Memory.writeBytes s.outBuf 0 w.out := rfl
@[simp] theorem storeDecoding_engine (k : Container) (w : WalkState) (n : Nat) (s : State) : (storeDecoding k w n s).engine = decodeEngine k w n s.engine := rfl
@[simp] theorem storeDecoding_host (k : Container) (w : WalkState) (n : Nat) (s : State) : (storeDecoding k w n s).host = s.host := rfl
@[simp] theorem storeDecoding_rdata (k : Container) (w : WalkState) (n : Nat) (s : State) : (storeDecoding k w n s).rdata = s.rdata := rfl
@[simp] theorem storeDecoding_latency (k : Container) (w : WalkState) (n : Nat) (s : State) : (storeDecoding k w n s).latency = s.latency := rfl
@[simp] theorem storeDecoding_draws (k : Container) (w : WalkState) (n : Nat) (s : State) : (storeDecoding k w n s).draws = s.draws := rfl

end Sys2Proof.Machine
end

