-- ==== Sys2Proof/Laws/Steps.lean ====
section
/-! SUPPORT. What a step can do, said once: one inversion lemma for the host's transactions, one for the engine's turn, one for the
step. -/

namespace Sys2Proof.Machine

/-- Everything a read transaction that is answered does. -/
theorem hostRead_next {space : Space} {width offset : Nat} {s t : State} (h : hostRead space width offset s = .next t) :
    t = { s with rdata := t.rdata, draws := t.draws } := by
  unfold hostRead at h
  split at h
  · split at h
    · cases h; rfl
    · cases h
  · split at h
    · cases h; rfl
    · cases h
  · split at h
    · cases h; rfl
    · cases h

/-- The cases of a host transaction that answers a next state `t`: a read (or an ignored write), a `CTRL` write, the acknowledge, an
`IN_LEN` write, an acceptance, a byte written to `IN`, one written to `OUT`, the `rst` line, and a `POLL` that goes on. -/
theorem hostOp_next {op : HostOp} {s t : State} (h : hostOp op s = .next t) :
    (t = { s with rdata := t.rdata, draws := t.draws }) ∨
    (∃ v, t = { s with ctrlIE := v } ∧ s.rst = false) ∨
    (t = s.acknowledge ∧ s.busy = false ∧ s.rst = false) ∨
    (∃ v, t = { s with inLen := v } ∧ s.busy = false ∧ s.rst = false) ∨
    (∃ v, t = s.accept v ∧ s.busy = false ∧ s.rst = false ∧ decodeWord v ≠ .ok .nop) ∨
    (∃ a b, t = { s with inBuf := Memory.write s.inBuf a b } ∧ a < s.inSize.toNat ∧ s.busy = false ∧ s.rst = false) ∨
    (∃ a b, t = { s with outBuf := Memory.write s.outBuf a b } ∧ a < s.outSize.toNat ∧ s.busy = false ∧ s.rst = false) ∨
    (∃ level, t = s.setRst level) ∨
    (t = { s with rdata := statusWord s, host := .poll :: s.host } ∧ op = .poll) := by
  have same : ∀ {t : State}, Host.Outcome.next (σ := State) (φ := Fault) (ρ := Refusal) s = .next t →
      t = { s with rdata := t.rdata, draws := t.draws } := by rintro t ⟨⟩; rfl
  cases op with
  | read space width offset => exact .inl (hostRead_next h)
  | poll =>
    simp only [hostOp, hostPoll] at h
    split at h
    · cases h; exact .inr (.inr (.inr (.inr (.inr (.inr (.inr (.inr ⟨rfl, rfl⟩)))))))
    · cases h; exact .inl rfl
  | rst level => cases h; exact .inr (.inr (.inr (.inr (.inr (.inr (.inr (.inl ⟨level, rfl⟩)))))))
  | write space width offset data =>
    simp only [hostOp, hostWrite] at h
    cases space with
    | reg =>
      simp only at h
      split at h
      · split at h
        · exact .inl (same h)
        · rename_i r _ hr
          have hr : s.rst = false := by simpa using hr
          cases r with
          | ctrl => cases h; exact .inr (.inl ⟨_, rfl, hr⟩)
          | cmd =>
            simp only [writeReg, writeCmd] at h
            split at h
            · exact .inl (same h)
            · rename_i hb
              split at h
              · exact .inl (same h)
              · rename_i hd
                cases h
                exact .inr (.inr (.inr (.inr (.inl ⟨data, rfl, by simpa using hb, hr, fun e => hd e⟩))))
          | status =>
            simp only [writeReg] at h
            split at h
            · rename_i hb
              simp only [Bool.and_eq_true, Bool.not_eq_true'] at hb
              cases h; exact .inr (.inr (.inl ⟨rfl, hb.1, hr⟩))
            · exact .inl (same h)
          | inLen =>
            simp only [writeReg] at h
            split at h
            · exact .inl (same h)
            · rename_i hb
              cases h; exact .inr (.inr (.inr (.inl ⟨_, rfl, by simpa using hb, hr⟩)))
          | _ => exact .inl (same h)
      · cases h
    | inBuf =>
      simp only at h
      split at h
      · rename_i hadm
        split at h
        · cases h
        · rename_i hb
          split at h
          · exact .inl (same h)
          · rename_i hr
            cases h
            simp only [byteAdmitted, Bool.and_eq_true, decide_eq_true_eq] at hadm
            exact .inr (.inr (.inr (.inr (.inr (.inl ⟨_, _, rfl, hadm.2, by simpa using hb, by simpa using hr⟩)))))
      · cases h
    | outBuf =>
      simp only at h
      split at h
      · rename_i hadm
        split at h
        · cases h
        · rename_i hb
          split at h
          · exact .inl (same h)
          · rename_i hr
            cases h
            simp only [byteAdmitted, Bool.and_eq_true, decide_eq_true_eq] at hadm
            exact .inr (.inr (.inr (.inr (.inr (.inr (.inl ⟨_, _, rfl, hadm.2, by simpa using hb, by simpa using hr⟩))))))
      · cases h

/-- The cases of an `ENCODE` (R142), on the state after the steps of acceptance. -/
theorem runEncode_cases (s : State) :
    (s.inLen = 0 ∧ runEncode s = s.raise .emptyInput) ∨
    (s.inLen ≠ 0 ∧ s.inSize.toNat < s.inLen.toNat ∧ runEncode s = s.raise .inputRange) ∨
    (s.inLen ≠ 0 ∧ s.inLen.toNat ≤ s.inSize.toNat ∧ s.outSize.toNat < encodeSize (inSnapshot s s.inLen.toNat) ∧
      runEncode s = (s.drew s.inLen.toNat).raise .outputOverflow) ∨
    (s.inLen ≠ 0 ∧ s.inLen.toNat ≤ s.inSize.toNat ∧ encodeSize (inSnapshot s s.inLen.toNat) ≤ s.outSize.toNat ∧
      runEncode s = (storeEncoding (inSnapshot s s.inLen.toNat) (s.drew s.inLen.toNat)).finishOk) := by
  unfold runEncode
  by_cases h0 : s.inLen = 0
  · exact .inl ⟨h0, if_pos h0⟩
  · rw [if_neg h0]
    by_cases h1 : s.inSize.toNat < s.inLen.toNat
    · exact .inr (.inl ⟨h0, h1, if_pos h1⟩)
    · rw [if_neg h1]
      by_cases h2 : s.outSize.toNat < encodeSize (inSnapshot s s.inLen.toNat)
      · exact .inr (.inr (.inl ⟨h0, Nat.not_lt.1 h1, h2, if_pos h2⟩))
      · exact .inr (.inr (.inr ⟨h0, Nat.not_lt.1 h1, Nat.not_lt.1 h2, if_neg h2⟩))

/-- The cases of a `DECODE` (R143), on the state after the steps of acceptance. -/
theorem runDecode_cases (s : State) :
    (s.inSize.toNat < s.inLen.toNat ∧ runDecode s = s.raise .inputRange) ∨
    (s.inLen.toNat ≤ s.inSize.toNat ∧ ∃ e,
      decodeContainer s.outSize.toNat (inSnapshot s s.inLen.toNat) = .error e ∧
      runDecode s = (s.drew s.inLen.toNat).raise e) ∨
    (s.inLen.toNat ≤ s.inSize.toNat ∧ ∃ k w,
      decodeContainer s.outSize.toNat (inSnapshot s s.inLen.toNat) = .ok (k, w) ∧
      runDecode s = (storeDecoding k w s.inLen.toNat (s.drew s.inLen.toNat)).finishOk) := by
  unfold runDecode
  by_cases h1 : s.inSize.toNat < s.inLen.toNat
  · exact .inl ⟨h1, if_pos h1⟩
  · rw [if_neg h1]
    cases h : decodeContainer s.outSize.toNat (inSnapshot s s.inLen.toNat) with
    | error e => exact .inr (.inl ⟨Nat.not_lt.1 h1, e, rfl, rfl⟩)
    | ok r => exact .inr (.inr ⟨Nat.not_lt.1 h1, r.1, r.2, rfl, rfl⟩)

/-- The engine's turn always answers a next state: `NOP` (never accepted), `ENCODE`, `DECODE`, or the end of an illegal word. -/
theorem engineTurn_cases (s : State) :
    (decodeWord s.command = .ok .nop ∧ engineTurn s = .next s) ∨
    (decodeWord s.command = .ok .encode ∧ engineTurn s = .next (runEncode s.beginCommand)) ∨
    (decodeWord s.command = .ok .decode ∧ engineTurn s = .next (runDecode s.beginCommand)) ∨
    (∃ e, decodeWord s.command = .error e ∧ engineTurn s = .next (s.beginCommand.raise .illegalCommand)) := by
  unfold engineTurn
  cases h : decodeWord s.command with
  | error e => exact .inr (.inr (.inr ⟨e, rfl, rfl⟩))
  | ok i =>
    cases i with
    | nop => exact .inl ⟨rfl, rfl⟩
    | encode => exact .inr (.inl ⟨rfl, rfl⟩)
    | decode => exact .inr (.inr (.inl ⟨rfl, rfl⟩))

/-- The cases of a step that answers a next state: the engine's turn, or the host's, with nothing pending or with its oldest transaction
taken off its list; `k` is the latency that is left. -/
theorem step_next {s t : State} (h : step s = .next t) :
    (s.phase = .busy ∧ s.latency = 0 ∧ engineTurn s = .next t) ∨
    (∃ k, (s.phase = .idle ∧ k = s.latency ∨ s.phase = .busy ∧ s.latency = k + 1) ∧
      (s.host = [] ∧ t = { s with latency := k } ∨
        ∃ op rest, s.host = op :: rest ∧ hostOp op { s with host := rest, latency := k } = .next t)) := by
  unfold step blockStep at h
  cases hp : s.phase with
  | idle =>
    simp only [hp, hostTurn] at h
    refine .inr ⟨s.latency, .inl ⟨rfl, rfl⟩, ?_⟩
    split at h
    · cases h; exact .inl ⟨‹_›, by rw [← hp]⟩
    · exact .inr ⟨_, _, ‹_›, h⟩
  | busy =>
    simp only [hp] at h
    split at h
    · exact .inl ⟨rfl, ‹_›, h⟩
    · rename_i hl
      obtain ⟨k, hk⟩ := Nat.exists_eq_succ_of_ne_zero hl
      refine .inr ⟨k, .inr ⟨rfl, hk⟩, ?_⟩
      simp only [hk, Nat.succ_eq_add_one, Nat.add_sub_cancel, hostTurn] at h
      split at h
      · cases h; exact .inl ⟨‹_›, rfl⟩
      · exact .inr ⟨_, _, ‹_›, h⟩

end Sys2Proof.Machine
end

