-- ==== Sys2Proof/Tests/Slice0.lean ====
section
/-! SUPPORT. Tests of the model, with the source of each expected result, and a witness for the hypotheses of every statement. -/

namespace Sys2Proof.Tests

open Sys2Proof.Machine

/-! ### Helpers -/

/-- The machine right after reset with small buffers. -/
def small : State := { State.reset with inSize := 64, outSize := 64 }

/-- `small` with `bs` written at `IN[0 ..)` and `IN_LEN` its length. -/
def loaded (bs : List Byte) : State :=
  { small with inBuf := Memory.writeBytes [] 0 bs, inLen := BitVec.ofNat 32 bs.length }

/-- `small` with a transaction pending. -/
def pending (op : HostOp) : State := { small with host := [op] }

/-- `small` running the command of word `v`, with `k` turns left to the host, and `ops` pending. -/
def running (v : Word) (k : Nat) (ops : List HostOp) : State :=
  { small with phase := .busy, command := v, latency := k, host := ops }

/-- A field of the state an outcome answers. -/
def field {α : Type} (f : State → α) : Host.Outcome State Fault Refusal → Option α
  | .next s => some (f s)
  | .fault _ => none
  | .refused _ => none

/-- "AAAB" (`95_test_vectors.md` V1). -/
def aaab : List Byte := [0x41, 0x41, 0x41, 0x42]

/-- The container of "AAAB" (V1). -/
def aaabContainer : List Byte :=
  [0x00, 0x00, 0x00, 0x02, 0x41, 0x00, 0x00, 0x00, 0x03, 0x42, 0x00, 0x00, 0x00, 0x01, 0x04, 0x10]

/-- The entry list of "AAAB" (F1). -/
def aaabEntries : List Entry := [⟨0x41, 3⟩, ⟨0x42, 1⟩]

/-- Its header, `Hd` of `95_test_vectors.md` section 7. -/
def hd : List Byte := aaabContainer.take 14

/-- 8 x "A" as an encoder with the other flush threshold writes it (V4). -/
def eightA : List Byte := [0x00, 0x00, 0x00, 0x01, 0x41, 0x00, 0x00, 0x00, 0x08, 0x08, 0x00]

set_option maxRecDepth 8000

/-! ### Well-formedness and decoding: the words are those of `30_encoding.md` R101, R102 -/

theorem test_nop_word_wellFormed : wellFormedWord 0b00000000000000000000000000000000 = true := by decide
theorem test_encode_word_wellFormed : wellFormedWord 0b00000000000000000000000000000001 = true := by decide
theorem test_decode_word_wellFormed : wellFormedWord 0b00000000000000000000000000000010 = true := by decide
/-- Check on `MBZ`: refused (V24). -/
theorem test_mbz_illFormed : wellFormedWord 0x00000100 = false := by decide
/-- Check on `OP`: refused (V24). -/
theorem test_op_illFormed : wellFormedWord 0x00000003 = false := by decide
theorem test_decode_nop : decodeWord 0b00000000000000000000000000000000 = .ok .nop := by decide
theorem test_decode_encode : decodeWord 0b00000000000000000000000000000001 = .ok .encode := by decide
theorem test_decode_decode : decodeWord 0b00000000000000000000000000000010 = .ok .decode := by decide
/-- The illegal words of V24. -/
theorem test_decode_illegal :
    decodeWord 0x00000003 = .error .illegalOp ∧ decodeWord 0x000000FF = .error .illegalOp ∧
    decodeWord 0x00000100 = .error .mustBeZero ∧ decodeWord 0x00000101 = .error .mustBeZero ∧
    decodeWord 0xFFFFFFFF = .error .mustBeZero := by decide
theorem test_table_words :
    decodeTableWord 32 0 = some .nop ∧ decodeTableWord 32 1 = some .encode ∧ decodeTableWord 32 2 = some .decode ∧
    decodeTableWord 32 3 = none := by decide
/-- The first step after reset runs the placed command: `NOP` leaves STATUS 0 (R141), `ENCODE` of nothing 0x16 (V19), `DECODE` of nothing
0x26 (X15). -/
theorem test_first_step :
    field statusWord (step (State.reset.withFetchWord 32 0)) = some 0x00 ∧
    field statusWord (step (State.reset.withFetchWord 32 1)) = some 0x16 ∧
    field statusWord (step (State.reset.withFetchWord 32 2)) = some 0x26 := by decide

/-! ### One step of each command (`95_test_vectors.md`) -/

/-- V25: `NOP` after V19 leaves STATUS 0x16. -/
theorem test_nop_keeps_status :
    field statusWord (step { pending (hostRUN 0) with done := true, err := true, errCode := 1 }) = some 0x16 := by decide

/-- V1. -/
theorem test_encode_aaab :
    field (fun s => (s.outBuf.map Prod.snd, s.outLen, s.syms, s.total, s.resid, statusWord s)) (exec .encode (loaded aaab)) =
      some (aaabContainer, 16, 2, 4, 4, 0x02) := by decide

/-- V6 (three symbols with equal weights: the tie-break and the child order). -/
theorem test_encode_abc :
    field (fun s => (s.outBuf.map Prod.snd).drop 19) (exec .encode (loaded [0x41, 0x42, 0x43])) = some [0x05, 0x48] := by decide

/-- V12: the stored order seeds the tree. -/
theorem test_decode_stored_order :
    field (fun s => s.outBuf.map Prod.snd) (exec .decode (loaded
      [0, 0, 0, 3, 0x43, 0, 0, 0, 1, 0x42, 0, 0, 0, 1, 0x41, 0, 0, 0, 1, 0x05, 0x48])) = some [0x43, 0x42, 0x41] := by decide

/-- X8: a fourth A over its frequency 3. -/
theorem test_decode_over_count :
    field (fun s => (statusWord s, s.outBuf, s.outLen)) (exec .decode (loaded (hd ++ [0x04, 0x00]))) =
      some (0x56, [], 0) := by decide

/-- T2: the tree of "ABRACADABRA" codes A = "1", B = "001", C = "011", D = "010", R = "000" (F4). -/
theorem test_codes_abracadabra :
    let cs := codeTable (buildTree [⟨0x41, 5⟩, ⟨0x42, 2⟩, ⟨0x43, 1⟩, ⟨0x44, 1⟩, ⟨0x52, 2⟩])
    codeOf cs 0x41 = [true] ∧ codeOf cs 0x42 = [false, false, true] ∧ codeOf cs 0x43 = [false, true, true] ∧
    codeOf cs 0x44 = [false, true, false] ∧ codeOf cs 0x52 = [false, false, false] := by decide

/-- V24: an illegal word reads STATUS 0x86. -/
theorem test_illegal_word : field statusWord (step (running 0x00000101 0 [])) = some 0x86 := by decide

/-- P4: `irq` after a completion with `CTRL.IE` = 1, dropped by the acknowledge. -/
theorem test_irq_acknowledge :
    irq { small with ctrlIE := true, done := true } = true ∧
    field irq (step { pending hostACK with ctrlIE := true, done := true }) = some false := by decide

/-! ### Witnesses: the hypotheses of each statement of `Certificates/Slice0/Obligations.lean` are met, clause by clause -/

theorem witness_OtherWordsAreIllegal :
    commandMbz 0x00000100 ≠ 0 ∧ (commandMbz 0x00000003 = 0 ∧ 3 ≤ (commandOp 0x00000003).toNat) ∧
    (commandMbz 0x000000FF = 0 ∧ 3 ≤ (commandOp 0x000000FF).toNat) ∧
    (commandMbz 0x00000002 = 0 ∧ (commandOp 0x00000002).toNat < 3) := by decide

theorem witness_DecodeOfEncodedCommand : WellFormed .decode = true := by decide

theorem witness_StepRunsTheDecodedCommand :
    ((running 1 0 []).phase = .busy ∧ (running 1 0 []).latency = 0 ∧ decodeWord (running 1 0 []).command = .ok .encode) ∧
    ((pending (hostRUN 0)).phase = .idle ∧ (pending (hostRUN 0)).rst = false ∧ (pending (hostRUN 0)).host = hostRUN 0 :: [] ∧
      decodeWord 0 = .ok .nop) ∧
    ((pending .poll).phase = .idle ∧ (pending .poll).host = .poll :: []) ∧
    ((running 2 1 [.poll]).phase = .busy ∧ (running 2 1 [.poll]).latency = 0 + 1 ∧ (running 2 1 [.poll]).host = .poll :: []) ∧
    (small.phase = .idle ∧ small.host = []) ∧
    ((running 1 1 []).phase = .busy ∧ (running 1 1 []).latency = 0 + 1 ∧ (running 1 1 []).host = []) := by decide

theorem witness_AcceptanceClearsAndStarts :
    ((pending (hostRUN 0)).phase = .idle ∧ (pending (hostRUN 0)).rst = false ∧ (pending (hostRUN 0)).host = hostRUN 0 :: []) ∧
    ((pending (hostRUN 1)).phase = .idle ∧ (pending (hostRUN 1)).rst = false ∧ (pending (hostRUN 1)).host = hostRUN 1 :: [] ∧
      (1 : Word) ≠ 0) ∧
    ((running 1 0 []).phase = .busy ∧ (running 1 0 []).latency = 0 ∧ (running 1 0 []).command ≠ 0 ∧ (running 1 0 []).command = 1) ∧
    ((running 2 0 []).command ≠ 0 ∧ (running 2 0 []).command = 2) ∧
    ((running 3 0 []).command ≠ 0 ∧ (running 3 0 []).command ≠ 1 ∧ (running 3 0 []).command ≠ 2) := by decide

theorem witness_WritesWhileBusyAreIgnored :
    (running 1 1 [hostWR 0x08 2]).phase = .busy ∧ (running 1 1 [hostWR 0x08 2]).latency = 0 + 1 ∧
    (running 1 1 [hostWR 0x08 2]).host = hostWR 0x08 2 :: [] ∧
    (running 1 1 [hostWR 0x0C 2]).host = hostWR 0x0C 2 :: [] ∧
    (running 1 1 [hostWR 0x10 7]).host = hostWR 0x10 7 :: [] := by decide

theorem witness_NoStaleStatus :
    ((pending (hostRUN 2)).phase = .idle ∧ (pending (hostRUN 2)).rst = false ∧ (pending (hostRUN 2)).host = hostRUN 2 :: [] ∧
      (2 : Word) ≠ 0) ∧
    (StatusInv (running 1 3 []) ∧ (running 1 3 []).phase = .busy) := by decide

/-- A host that polls, reads a result, writes `CTRL` and reads `OUT` during a command. -/
theorem witness_AcceptedCommandCompletes :
    let s := running 1 3 [.poll, hostRD 0x14, hostWR 0x04 1, hostRB 0]
    s.phase = .busy ∧ s.rst = false ∧ decodeWord s.command ≠ .ok .nop ∧ ∀ op ∈ s.host, HostOp.dutiful s op = true := by decide

theorem witness_CommandIsAtomicForADutifulHost :
    let s := { loaded aaab with phase := .busy, command := 1, latency := 2, host := [hostWR 0x04 1, .poll] }
    s.phase = .busy ∧ s.rst = false ∧ decodeWord s.command ≠ .ok .nop ∧ (∀ op ∈ s.host, HostOp.dutiful s op = true) ∧
    s.inLen.toNat ≤ s.inSize.toNat ∧ ∀ a, a < s.inLen.toNat → (Memory.read s.inBuf a).isSome = true := by decide

theorem witness_OnlyRefusedAccessesStopAStep :
    (∃ r, step (pending (.read .reg 4 0x3E)) = .refused r) ∧ (∃ r, step (pending (.write .inBuf 1 64 0)) = .refused r) ∧
    (∃ r, step (running 1 1 [hostWB 0 0]) = .refused r) ∧ (running 1 1 []).phase = .busy :=
  ⟨⟨_, rfl⟩, ⟨_, rfl⟩, ⟨_, rfl⟩, rfl⟩

theorem witness_NopHasNoEffect :
    ((pending (hostRUN 0)).host = hostRUN 0 :: [] ∧ (pending (hostRUN 0)).phase = .idle) ∧
    ((running 1 1 [hostRUN 0]).host = hostRUN 0 :: [] ∧ (running 1 1 [hostRUN 0]).phase = .busy ∧
      (running 1 1 [hostRUN 0]).latency = 0 + 1) := by decide

/-- V22: the container of "AAAB" fills `OUT` exactly when `OUT_SIZE` = 16. -/
theorem witness_EncodeCompletes :
    let s := { loaded aaab with outSize := 16 }
    s.inLen ≠ 0 ∧ s.inLen.toNat ≤ s.inSize.toNat ∧ encodeSize (inSnapshot s s.inLen.toNat) ≤ s.outSize.toNat := by decide

theorem witness_EncodeReportsTheFirstError :
    small.inLen = 0 ∧
    (let s := { loaded aaab with inSize := 3 }
     s.inLen ≠ 0 ∧ s.inSize.toNat < s.inLen.toNat) ∧
    (let s := { loaded aaab with outSize := 15 }
     s.inLen ≠ 0 ∧ s.inLen.toNat ≤ s.inSize.toNat ∧ s.outSize.toNat < encodeSize (inSnapshot s s.inLen.toNat)) ∧
    (let s := { loaded aaab with outSize := 16, inSize := 4 }
     s.inLen ≠ 0 ∧ s.inLen.toNat ≤ s.inSize.toNat ∧ encodeSize (inSnapshot s s.inLen.toNat) ≤ s.outSize.toNat) := by decide

/-- X1, with `OUT_SIZE` = T. -/
theorem witness_DecodeCompletes :
    let s := { loaded aaabContainer with outSize := 4, inSize := 16 }
    s.inLen.toNat ≤ s.inSize.toNat ∧
    ∃ k w, decodeContainer s.outSize.toNat (inSnapshot s s.inLen.toNat) = .ok (k, w) ∧ w.out = aaab :=
  ⟨by decide, _, _, rfl, by decide⟩

/-- The clauses: range; X12; `OUT_SIZE` below T; X5; X1. -/
theorem witness_DecodeReportsTheFirstError :
    (let s := { loaded aaabContainer with inSize := 15 }
     s.inSize.toNat < s.inLen.toNat) ∧
    (let s := loaded [0, 0, 0, 0, 0, 0]
     s.inLen.toNat ≤ s.inSize.toNat ∧ parseContainer (inSnapshot s s.inLen.toNat) = .error .malformedHeader) ∧
    parseContainer aaabContainer = .ok ⟨aaabEntries, [], 4, 0x10⟩ ∧ 3 < totalCount aaabEntries ∧ totalCount aaabEntries ≤ 4 ∧
    parseContainer (hd ++ [0x03, 0x10]) = .ok ⟨aaabEntries, [], 3, 0x10⟩ ∧
    walk (buildTree aaabEntries) aaabEntries (meaningfulBits ⟨aaabEntries, [], 3, 0x10⟩) (totalCount aaabEntries) =
      .error .truncatedPayload ∧
    (walk (buildTree aaabEntries) aaabEntries (meaningfulBits ⟨aaabEntries, [], 4, 0x10⟩) (totalCount aaabEntries)).isOk = true := by
  decide

theorem witness_IllegalWordEndsInItsError :
    ((running 0xFF 0 []).phase = .busy ∧ (running 0xFF 0 []).latency = 0 ∧ decodeWord (running 0xFF 0 []).command = .error .illegalOp) ∧
    (∃ t, step { small with host := [hostRUN 3, .poll, hostRB 0] } = .next t ∧ t.host = [.poll, hostRB 0] ∧
      ∀ op ∈ [HostOp.poll, hostRB 0], HostOp.dutiful t op = true) ∧
    (pending (hostRUN 0x100)).phase = .idle ∧ (pending (hostRUN 0x100)).rst = false ∧
    (pending (hostRUN 0x100)).host = hostRUN 0x100 :: [] ∧ decodeWord 0x100 = .error .mustBeZero ∧
    (pending (hostRUN 3)).host = hostRUN 3 :: [] ∧ decodeWord 3 = .error .illegalOp :=
  ⟨by decide, ⟨_, rfl, rfl, by decide⟩, by decide, by decide, by decide, by decide, by decide, by decide⟩

theorem witness_ErrorEntryLeavesThisState :
    (∃ t, Instr.encode ≠ .nop ∧ exec .encode small = .next t ∧ t.err = true) ∧
    (∃ t, Instr.decode ≠ .nop ∧ exec .decode small = .next t ∧ t.err = true) ∧
    (∃ t, execIllegal small = .next t ∧ t.err = true) :=
  ⟨⟨_, by decide, rfl, by decide⟩, ⟨_, by decide, rfl, by decide⟩, ⟨_, rfl, by decide⟩⟩

theorem witness_CommandFrame :
    (∃ t, exec .nop small = .next t) ∧ (∃ t, exec .encode small = .next t) ∧ (∃ t, exec .decode small = .next t) :=
  ⟨⟨_, rfl⟩, ⟨_, rfl⟩, ⟨_, rfl⟩⟩

theorem witness_CommandWritesExactlyItsOutput :
    (∃ t, Instr.encode ≠ .nop ∧ exec .encode (loaded aaab) = .next t ∧ t.err = false) ∧
    (∃ t, Instr.decode ≠ .nop ∧ exec .decode (loaded aaabContainer) = .next t ∧ t.err = false) ∧
    (∃ t, Instr.decode ≠ .nop ∧ exec .decode small = .next t ∧ t.err = true) :=
  ⟨⟨_, by decide, rfl, by decide⟩, ⟨_, by decide, rfl, by decide⟩, ⟨_, by decide, rfl, by decide⟩⟩

theorem witness_ResultsDependOnTheInputAlone :
    let s := loaded aaab
    let s' := { loaded aaab with ctrlIE := true, draws := 9, outBuf := [(0, 7)], rdata := 5 }
    Instr.encode ≠ .nop ∧ s'.inSize = s.inSize ∧ s'.outSize = s.outSize ∧ s'.inLen = s.inLen ∧ s.inLen.toNat ≤ s.inSize.toNat ∧
    ∀ a, a < s.inLen.toNat → (Memory.read s.inBuf a).isSome = true ∧ Memory.read s'.inBuf a = Memory.read s.inBuf a := by decide

theorem witness_EntryListProperties : aaab.length < 2 ^ 32 := by decide

theorem witness_ExtractMinTakesTheLeastKey :
    ((Tree.leaf 0x41 3 0 :: [.leaf 0x42 1 1, .leaf 0x43 1 2]).map Tree.seq).Nodup := by decide

/-- `BuildContract`, with L = 1, L = 2 and entries out of symbol order. -/
theorem witness_BuiltTreeInvariants :
    BuildContract [⟨0x41, 100⟩] ∧ BuildContract aaabEntries ∧ BuildContract [⟨0x43, 1⟩, ⟨0x42, 1⟩, ⟨0x41, 1⟩] := by decide

theorem witness_ArenaHoldsTheTreeExactly :
    BuildContract [⟨0x41, 0xFFFFFFFF⟩, ⟨0x42, 0xFFFFFFFF⟩] ∧ 2 < 2 * [(⟨0x41, 0xFFFFFFFF⟩ : Entry), ⟨0x42, 0xFFFFFFFF⟩].length - 1 := by
  decide

/-- L = 2 and L = 1, the two clauses on the number of entries. -/
theorem witness_CodesArePrefixFreeAndComplete :
    (BuildContract aaabEntries ∧ 2 ≤ aaabEntries.length) ∧
    (BuildContract [⟨0x41, 100⟩] ∧ [(⟨0x41, 100⟩ : Entry)].length = 1) := by decide

theorem witness_AppendBitFlushesAtEight :
    (List.replicate 7 true).length = 7 ∧ (List.replicate 6 true).length < 7 := by decide

theorem witness_TrailerIsLeftJustified : [false, false, false, true].length ≤ 7 := by decide

theorem witness_PayloadClosedForm :
    [false, false, false, true] = symbolBits [(0x41, [false]), (0x42, [true])] aaab := by decide

theorem witness_ContainerLengthIsTheCheckedSize : aaab ≠ [] ∧ aaab.length < 2 ^ 32 := by decide

theorem witness_EncodedContainerParsesBack : [(0x41 : Byte)] ≠ [] ∧ [(0x41 : Byte)].length < 2 ^ 32 := by decide

/-- The number of entries, the symbols and the frequencies of a container by the offsets of R104. -/
def offL (c : List Byte) : Nat := (be32 (c.getD 0 0) (c.getD 1 0) (c.getD 2 0) (c.getD 3 0)).toNat
def offSym (c : List Byte) (i : Nat) : Byte := c.getD (4 + 5 * i) 0
def offFreq (c : List Byte) (i : Nat) : Word :=
  be32 (c.getD (5 + 5 * i) 0) (c.getD (6 + 5 * i) 0) (c.getD (7 + 5 * i) 0) (c.getD (8 + 5 * i) 0)

/-- The clauses, at their boundaries: X16; X12; X13 (257 entries); X17; X21 and X20; X18; X7; X1. -/
theorem witness_ParseChecksInOrder :
    [(0 : Byte), 0, 0].length < 4 ∧
    (let c : List Byte := [0, 0, 0, 0]; 4 ≤ c.length ∧ offL c = 0) ∧
    (let c : List Byte := [0, 0, 1, 1]; 4 ≤ c.length ∧ 256 < offL c) ∧
    (let c := hd.take 13; 4 ≤ c.length ∧ c.length < 4 + 5 * offL c) ∧
    (let c : List Byte := [0, 0, 0, 2, 0x41, 0, 0, 0, 0, 0x42, 0, 0, 0, 1, 2, 0x80]
     4 ≤ c.length ∧ 1 ≤ offL c ∧ offL c ≤ 256 ∧ 4 + 5 * offL c ≤ c.length ∧ 0 < offL c ∧ offFreq c 0 = 0) ∧
    (let c : List Byte := [0, 0, 0, 2, 0x41, 0, 0, 0, 1, 0x41, 0, 0, 0, 1, 2, 0x80]
     1 < offL c ∧ 0 < 1 ∧ offSym c 0 = offSym c 1) ∧
    (let c := hd
     4 ≤ c.length ∧ 1 ≤ offL c ∧ offL c ≤ 256 ∧ 4 + 5 * offL c ≤ c.length ∧
     (∀ i, i < offL c → offFreq c i ≠ 0 ∧ ∀ j, j < i → offSym c j ≠ offSym c i) ∧ c.length < 4 + 5 * offL c + 2) ∧
    (let c := hd ++ [0x09, 0x10]; 4 + 5 * offL c + 2 ≤ c.length ∧ 8 < (c.getD (c.length - 2) 0).toNat) ∧
    (let c := aaabContainer; 4 + 5 * offL c + 2 ≤ c.length ∧ (c.getD (c.length - 2) 0).toNat ≤ 8) := by decide

theorem witness_MeaningfulBitsArePayloadThenResidual :
    (⟨[], [0x91], 8, 0x22⟩ : Container).resid ≤ 8 ∧ 7 < 8 * [(0x91 : Byte)].length := by decide

theorem witness_SuccessfulWalkMatchesTheHeader :
    BuildContract aaabEntries ∧
    (walk (buildTree aaabEntries) aaabEntries [false, false, false, true] (totalCount aaabEntries)).isOk = true := by decide

theorem witness_SingleSymbolWalk :
    2 < [false, false, false].length ∧ true ∈ [false, true] ∧
    ([false].length < 2 ∧ true ∉ [false]) ∧ ([false, false].length = 2 ∧ true ∉ [false, false]) := by decide

/-- Data shorter than T, and of length T. -/
theorem witness_WalkEmitsTheCodedSymbols :
    BuildContract aaabEntries ∧
    (∀ d ∈ [[0x41, 0x42], aaab], (∀ s ∈ d, s ∈ aaabEntries.map Entry.sym) ∧ ∀ e ∈ aaabEntries, d.count e.sym ≤ e.freq.toNat) ∧
    [(0x41 : Byte), 0x42].length < totalCount aaabEntries ∧ aaab.length = totalCount aaabEntries := by decide

/-- A bit string that ends inside a code: "C", then the first bit of the code "01" of A (V6). -/
theorem witness_WalkEmitsTheCodedSymbols_midCode :
    let es : List Entry := [⟨0x41, 1⟩, ⟨0x42, 1⟩, ⟨0x43, 1⟩]
    BuildContract es ∧ (∀ s ∈ [(0x43 : Byte)], s ∈ es.map Entry.sym) ∧ (∀ e ∈ es, [(0x43 : Byte)].count e.sym ≤ e.freq.toNat) ∧
    [(0x43 : Byte)].length < totalCount es ∧ (⟨0x41, 1⟩ : Entry) ∈ es ∧ [false] ≠ ([] : Bits) ∧
    [false] <+: codeOf (codeTable (buildTree es)) 0x41 ∧ [false] ≠ codeOf (codeTable (buildTree es)) 0x41 := by decide

theorem witness_OverCountIsAMismatch :
    let d : List Byte := [0x42]
    let e : Entry := ⟨0x42, 1⟩
    BuildContract aaabEntries ∧ (∀ s ∈ d, s ∈ aaabEntries.map Entry.sym) ∧ (∀ x ∈ aaabEntries, d.count x.sym ≤ x.freq.toNat) ∧
    e ∈ aaabEntries ∧ d.count e.sym = e.freq.toNat := by decide

/-- X1 and X2. -/
theorem witness_PaddingBitsAreIgnored :
    parseContainer ((hd ++ [0x04]) ++ [0x10]) = .ok ⟨aaabEntries, [], 4, 0x10⟩ ∧ (bits8 0x10).take 4 = (bits8 0x1F).take 4 := by
  decide

/-- V4. -/
theorem witness_ResidualEightIsOneMorePayloadByte : parseContainer eightA = .ok ⟨[⟨0x41, 8⟩], [], 8, 0x00⟩ := by decide

/-- The payload byte of "AAAAAAAAB" (V15). -/
theorem witness_RemovedPayloadByteIsDetected :
    let d : List Byte := [0x41, 0x41, 0x41, 0x41, 0x41, 0x41, 0x41, 0x41, 0x42]
    d ≠ [] ∧ d.length < 2 ^ 32 ∧ 4 + 5 * (encodeEntries d).length ≤ 14 ∧
    14 < 4 + 5 * (encodeEntries d).length + encodeBits d / 8 ∧ d.length ≤ 9 := by decide

/-- The state after `ENCODE` of "AB", its container as the input of a second block. -/
theorem witness_DecodeOfEncodeRoundTrip :
    let s := loaded [0x41, 0x42]
    ∃ t u : State, (∀ a, a < s.inLen.toNat → (Memory.read s.inBuf a).isSome = true) ∧
      exec .encode s = .next t ∧ t.err = false ∧
      (∀ a, a < t.outLen.toNat → Memory.read u.inBuf a = Memory.read t.outBuf a) ∧ u.inLen = t.outLen ∧
      t.outLen.toNat ≤ u.inSize.toNat ∧ s.inLen.toNat ≤ u.outSize.toNat :=
  ⟨runEncode (loaded [0x41, 0x42]).beginCommand,
    { small with
      inBuf := (runEncode (loaded [0x41, 0x42]).beginCommand).outBuf
      inLen := (runEncode (loaded [0x41, 0x42]).beginCommand).outLen },
    by decide, rfl, by decide, fun _ _ => rfl, rfl, by decide, by decide⟩

theorem witness_RegisterMap : 0x30 ∈ [0x30, 0x34, 0x38, 0x3C] ∧ 0x00 ∈ [0x00, 0x14, 0x18, 0x1C] := by decide

theorem witness_CtrlAndInLenWrites :
    (small.rst = false ∧ small.phase = .idle ∧ ∃ t, hostOp (hostWR 0x04 0xFFFFFFFF) small = .next t) ∧
    ((running 1 1 []).rst = false ∧ (running 1 1 []).phase = .busy) := ⟨⟨rfl, rfl, _, rfl⟩, rfl, rfl⟩

theorem witness_StatusWriteAcknowledges :
    (small.rst = false ∧ small.phase = .idle ∧ (0x00000002 : Word).getLsbD 1 = true) ∧ (0x00000001 : Word).getLsbD 1 = false ∧
    (running 1 1 []).rst = false ∧ (running 1 1 []).phase = .busy := by decide

theorem witness_ReadsHaveNoSideEffects : ∃ t, hostOp (.read .outBuf 1 63) small = .next t := ⟨_, rfl⟩

theorem witness_PollRepeatsWhileBusy : (running 1 1 []).phase = .busy ∧ small.phase = .idle := by decide

theorem witness_BufferReads :
    63 < small.inSize.toNat ∧ 63 < small.outSize.toNat ∧ Memory.read small.outBuf 63 = none ∧
    Memory.read (loaded aaab).inBuf 3 = some 0x42 ∧ small.phase = .idle ∧
    Memory.read { small with outBuf := [(2, 9)] }.outBuf 2 = some 9 ∧ (running 1 1 []).phase = .busy := by decide

theorem witness_BufferWrites : small.phase = .idle ∧ small.rst = false ∧ 63 < small.inSize.toNat ∧ 63 < small.outSize.toNat := by
  decide

theorem witness_RstResetsTheBlock :
    let s := { small with rst := true }
    s.rst = true ∧ s.phase = .idle ∧ HostOp.admitted s (hostRUN 1) = true ∧ HostOp.admitted s (hostWB 0 1) = true := by decide

/-- The invariants, and a step that answers a next state, together. -/
theorem witness_StepKeepsBuffersInv : BuffersInv (loaded aaab) ∧ ∃ t, step (loaded aaab) = .next t := ⟨by decide, _, rfl⟩
theorem witness_StepKeepsStatusInv : StatusInv (running 1 0 []) ∧ ∃ t, step (running 1 0 []) = .next t := ⟨by decide, _, rfl⟩
theorem witness_StepKeepsResultsInv : ResultsInv (running 2 0 []) ∧ ∃ t, step (running 2 0 []) = .next t := ⟨by decide, _, rfl⟩
theorem witness_StepKeepsResetInv :
    ResetInv { pending (hostRUN 1) with rst := true } ∧ ∃ t, step { pending (hostRUN 1) with rst := true } = .next t :=
  ⟨by decide, _, rfl⟩
theorem witness_StepKeepsTheParameters : ∃ t, step (pending .poll) = .next t := ⟨_, rfl⟩

end Sys2Proof.Tests
end

section
/-! PROOFS. The notation of `00_scope.md`: bytes and words from bits and bytes (R13, R14), and the queue order of `extract-min` (R18). -/

namespace Sys2Proof.Machine

/-! ### The order of the queue (R18) -/

theorem keyLt_iff {a b : Tree} : keyLt a b = true ↔ a.weight < b.weight ∨ (a.weight = b.weight ∧ a.seq < b.seq) := by
  simp [keyLt]

theorem keyLt_trans {a b c : Tree} (hab : keyLt a b = true) (hbc : keyLt b c = true) : keyLt a c = true := by
  rw [keyLt_iff] at *
  omega

/-- Nodes of different sequence numbers are always ordered, so equal weights leave no tie. -/
theorem keyLt_of_not_keyLt {a b : Tree} (hne : a.seq ≠ b.seq) (h : ¬ keyLt a b = true) : keyLt b a = true := by
  rw [keyLt_iff] at *
  omega

/-- A node of the queue is the one `extract-min` answers or one it leaves. -/
theorem mem_queue_iff_extractMin {t u : Tree} {ts : List Tree} : u ∈ t :: ts ↔ u = (extractMin t ts).1 ∨ u ∈ (extractMin t ts).2 :=
  (extractMin_perm ts t).mem_iff.symm.trans List.mem_cons

/-- With distinct sequence numbers, the answer of `extract-min` has a key below that of every node it leaves. -/
theorem keyLt_extractMin (ts : List Tree) :
    ∀ t, ((t :: ts).map Tree.seq).Nodup → ∀ u ∈ (extractMin t ts).2, keyLt (extractMin t ts).1 u = true := by
  induction ts with
  | nil => intro t _ u hu; cases hu
  | cons v vs ih =>
    intro t hnd
    rw [List.map_cons, List.nodup_cons] at hnd
    obtain ⟨hfresh, hnd⟩ := hnd
    have hleast := ih v hnd
    simp only [extractMin]
    split
    case isTrue hlt =>
      intro u hu
      rcases mem_queue_iff_extractMin.1 hu with rfl | hu
      · exact hlt
      · exact keyLt_trans hlt (hleast u hu)
    case isFalse hge =>
      have hne : t.seq ≠ (extractMin v vs).1.seq := fun h =>
        hfresh (h ▸ List.mem_map_of_mem (mem_queue_iff_extractMin.2 (.inl rfl)))
      intro u hu
      rcases List.mem_cons.1 hu with rfl | hu
      · exact keyLt_of_not_keyLt hne hge
      · exact hleast u hu

/-- Settles O24, from the permutation `extractMin_perm` and, by induction on the queue, `keyLt_extractMin`. -/
theorem extractMinTakesTheLeastKey : Obligations.ExtractMinTakesTheLeastKey := by
  intro t ts hnd
  exact ⟨extractMin_perm ts t, fun u hu => keyLt_iff.1 (keyLt_extractMin ts t hnd u hu)⟩

/-! ### Bytes and bit strings (R13) -/

/-- The value of a bit string of length 8 fits a byte, so `byteOfBits` loses nothing. -/
theorem byteOfBits_toNat (x7 x6 x5 x4 x3 x2 x1 x0 : Bool) :
    (byteOfBits [x7, x6, x5, x4, x3, x2, x1, x0]).toNat =
      x7.toNat * 2 ^ 7 + x6.toNat * 2 ^ 6 + x5.toNat * 2 ^ 5 + x4.toNat * 2 ^ 4 +
      x3.toNat * 2 ^ 3 + x2.toNat * 2 ^ 2 + x1.toNat * 2 ^ 1 + x0.toNat * 2 ^ 0 := by
  have := x7.toNat_le; have := x6.toNat_le; have := x5.toNat_le; have := x4.toNat_le
  have := x3.toNat_le; have := x2.toNat_le; have := x1.toNat_le; have := x0.toNat_le
  simp only [byteOfBits, List.foldl, BitVec.toNat_ofNat]
  omega

/-- Each step of `byteOfBits` pushes one bit at the low end (`Nat.bit`), so bit `i` of the byte is the string's bit `7 - i`. -/
theorem bits8_byteOfBits (x7 x6 x5 x4 x3 x2 x1 x0 : Bool) :
    bits8 (byteOfBits [x7, x6, x5, x4, x3, x2, x1, x0]) = [x7, x6, x5, x4, x3, x2, x1, x0] := by
  simp only [bits8, byteOfBits, List.foldl, ← Nat.bit_val, BitVec.getLsbD_ofNat, Nat.testBit_bit_succ, Nat.testBit_bit_zero]
  rfl

theorem bits8_injective {v w : Byte} (h : bits8 v = bits8 w) : v = w := by
  simp only [bits8, List.cons.injEq, and_true] at h
  obtain ⟨h7, h6, h5, h4, h3, h2, h1, h0⟩ := h
  refine BitVec.eq_of_getLsbD_eq fun i hi => ?_
  interval_cases i <;> assumption

@[simp] theorem byteOfBits_bits8 (v : Byte) : byteOfBits (bits8 v) = v :=
  bits8_injective (bits8_byteOfBits ..)

/-! ### Big-endian words (R14) -/

theorem toNat_append_eq_add {m n : Nat} (x : BitVec m) (y : BitVec n) : (x ++ y).toNat = x.toNat * 2 ^ n + y.toNat := by
  rw [BitVec.toNat_append, ← Nat.shiftLeft_add_eq_or_of_lt y.isLt, Nat.shiftLeft_eq]

theorem be32_toNat (b0 b1 b2 b3 : Byte) :
    (be32 b0 b1 b2 b3).toNat = b0.toNat * 2 ^ 24 + b1.toNat * 2 ^ 16 + b2.toNat * 2 ^ 8 + b3.toNat := by
  simp only [be32, toNat_append_eq_add]
  omega

@[simp] theorem be32enc_be32 (b0 b1 b2 b3 : Byte) : be32enc (be32 b0 b1 b2 b3) = [b0, b1, b2, b3] := by
  have := b0.isLt; have := b1.isLt; have := b2.isLt; have := b3.isLt
  simp only [be32enc, List.cons.injEq, and_true, ← BitVec.toNat_inj, BitVec.extractLsb'_toNat, be32_toNat, Nat.shiftRight_eq_div_pow]
  omega

/-- Settles O4, from the value of a bit string and of four big-endian bytes, and the inverse of each. -/
theorem byteAndWordAssembly : Obligations.ByteAndWordAssembly :=
  ⟨fun x7 x6 x5 x4 x3 x2 x1 x0 => ⟨byteOfBits_toNat x7 x6 x5 x4 x3 x2 x1 x0, bits8_byteOfBits x7 x6 x5 x4 x3 x2 x1 x0⟩,
    byteOfBits_bits8, fun b0 b1 b2 b3 => ⟨be32_toNat b0 b1 b2 b3, be32enc_be32 b0 b1 b2 b3⟩⟩

end Sys2Proof.Machine
end

section
/-! PROOFS. The state, its registers and its invariants (`10_state.md`): what every step keeps, said once by `StepInvariant`. -/

namespace Sys2Proof.Machine

/-! ### Every case of a step, once -/

/-- The engine's turn that answers `t`: `NOP`, which changes nothing, an error entry right after the steps of acceptance, or the completion of
an `ENCODE` or of a `DECODE` whose checks have passed. -/
theorem engineTurn_next {s t : State} (h : engineTurn s = .next t) :
    t = s ∨
    (∃ e k, t = (s.beginCommand.drew k).raise e) ∨
    (∃ data : List Byte, data.length = s.inLen.toNat ∧ encodeSize data ≤ s.outSize.toNat ∧
      t = (storeEncoding data (s.beginCommand.drew data.length)).finishOk) ∨
    (∃ c k w n, decodeContainer s.outSize.toNat c = .ok (k, w) ∧ t = (storeDecoding k w n (s.beginCommand.drew n)).finishOk) := by
  rcases engineTurn_cases s with ⟨_, he⟩ | ⟨_, he⟩ | ⟨_, he⟩ | ⟨_, _, he⟩ <;> rw [he] at h <;> cases h
  · exact .inl rfl
  · rcases runEncode_cases s.beginCommand with ⟨_, hr⟩ | ⟨_, _, hr⟩ | ⟨_, _, _, hr⟩ | ⟨_, _, hfit, hr⟩ <;> rw [hr]
    · exact .inr (.inl ⟨_, 0, rfl⟩)
    · exact .inr (.inl ⟨_, 0, rfl⟩)
    · exact .inr (.inl ⟨_, _, rfl⟩)
    · exact .inr (.inr (.inl ⟨_, inSnapshot_length _ _, hfit, by rw [inSnapshot_length]; rfl⟩))
  · rcases runDecode_cases s.beginCommand with ⟨_, hr⟩ | ⟨_, _, _, hr⟩ | ⟨_, _, _, hok, hr⟩ <;> rw [hr]
    · exact .inr (.inl ⟨_, 0, rfl⟩)
    · exact .inr (.inl ⟨_, _, rfl⟩)
    · exact .inr (.inr (.inr ⟨_, _, _, _, hok, rfl⟩))
  · exact .inr (.inl ⟨_, 0, rfl⟩)

/-- A property of the state that survives each thing a step can do: by `StepInvariant.of_step` every step keeps it. The first field is about what
is the model's own (logs 2, 3, 6, 11), the next seven about the host's transactions, the last three about the engine's turn. -/
structure StepInvariant (P : State → Prop) : Prop where
  own : ∀ (s : State) (host : List HostOp) (rdata : Word) (latency draws : Nat), P s →
    P { s with host := host, rdata := rdata, latency := latency, draws := draws }
  ctrl : ∀ (s : State) (v : Bool), P s → s.rst = false → P { s with ctrlIE := v }
  acknowledge : ∀ s : State, P s → s.rst = false → P s.acknowledge
  inLen : ∀ (s : State) (v : Word), P s → s.rst = false → P { s with inLen := v }
  accept : ∀ (s : State) (v : Word), P s → s.rst = false → decodeWord v ≠ .ok .nop → P (s.accept v)
  writeIn : ∀ (s : State) (a : Nat) (b : Byte), P s → s.rst = false → a < s.inSize.toNat →
    P { s with inBuf := Memory.write s.inBuf a b }
  writeOut : ∀ (s : State) (a : Nat) (b : Byte), P s → s.rst = false → a < s.outSize.toNat →
    P { s with outBuf := Memory.write s.outBuf a b }
  reset : ∀ (s : State) (level : Bool), P s → P { s.resetBlock with rst := level }
  raised : ∀ (s : State) (e : CommandError) (k : Nat), P s → s.phase = .busy → P ((s.beginCommand.drew k).raise e)
  encoded : ∀ (s : State) (data : List Byte), P s → s.phase = .busy → data.length = s.inLen.toNat →
    encodeSize data ≤ s.outSize.toNat → P (storeEncoding data (s.beginCommand.drew data.length)).finishOk
  decoded : ∀ (s : State) (c : List Byte) (k : Container) (w : WalkState) (n : Nat), P s → s.phase = .busy →
    decodeContainer s.outSize.toNat c = .ok (k, w) → P (storeDecoding k w n (s.beginCommand.drew n)).finishOk

namespace StepInvariant

variable {P : State → Prop}

theorem of_setRst (hP : StepInvariant P) {s : State} (level : Bool) (h : P s) : P (s.setRst level) := by
  unfold State.setRst
  split
  · exact hP.reset s level h
  · exact h

theorem of_hostOp (hP : StepInvariant P) {op : HostOp} {s t : State} (h : P s) (ht : hostOp op s = .next t) : P t := by
  rcases hostOp_next ht with e | ⟨v, rfl, hr⟩ | ⟨rfl, _, hr⟩ | ⟨v, rfl, _, hr⟩ | ⟨v, rfl, _, hr, hv⟩ | ⟨a, b, rfl, ha, _, hr⟩ |
    ⟨a, b, rfl, ha, _, hr⟩ | ⟨level, rfl⟩ | ⟨rfl, _⟩
  · rw [e]; exact hP.own s s.host t.rdata s.latency t.draws h
  · exact hP.ctrl s v h hr
  · exact hP.acknowledge s h hr
  · exact hP.inLen s v h hr
  · exact hP.accept s v h hr hv
  · exact hP.writeIn s a b h hr ha
  · exact hP.writeOut s a b h hr ha
  · exact hP.of_setRst level h
  · exact hP.own s (.poll :: s.host) (statusWord s) s.latency s.draws h

theorem of_engineTurn (hP : StepInvariant P) {s t : State} (h : P s) (hb : s.phase = .busy) (ht : engineTurn s = .next t) : P t := by
  rcases engineTurn_next ht with rfl | ⟨e, k, rfl⟩ | ⟨data, hl, hfit, rfl⟩ | ⟨c, k, w, n, hok, rfl⟩
  · exact h
  · exact hP.raised s e k h hb
  · exact hP.encoded s data h hb hl hfit
  · exact hP.decoded s c k w n h hb hok

/-- Every step that answers a next state keeps the property. -/
theorem of_step (hP : StepInvariant P) {s t : State} (h : P s) (ht : step s = .next t) : P t := by
  rcases step_next ht with ⟨hb, _, he⟩ | ⟨k, _, ⟨_, rfl⟩ | ⟨op, rest, _, ho⟩⟩
  · exact hP.of_engineTurn h hb he
  · exact hP.own s s.host s.rdata k s.draws h
  · exact hP.of_hostOp (hP.own s rest s.rdata k s.draws h) ho

end StepInvariant

/-! ### The parameters (R34, R35) -/

theorem stepInvariant_parameters (i o : Word) : StepInvariant (fun s => s.inSize = i ∧ s.outSize = o) where
  own _ _ _ _ _ h := h
  ctrl _ _ h _ := h
  acknowledge _ h _ := h
  inLen _ _ h _ := h
  accept _ _ h _ _ := h
  writeIn _ _ _ h _ _ := h
  writeOut _ _ _ h _ _ := h
  reset _ _ h := h
  raised _ _ _ h _ := h
  encoded _ _ h _ _ _ := h
  decoded _ _ _ _ _ h _ _ := h

/-- Settles O60: the parameters of the state before are kept by each case of the step. -/
theorem stepKeepsTheParameters : Obligations.StepKeepsTheParameters := fun s _ ht =>
  (stepInvariant_parameters s.inSize s.outSize).of_step ⟨rfl, rfl⟩ ht

/-! ### The result registers (R29, R30, R32, R33) -/

theorem toNat_ofNat_le {v m : Nat} (n : Nat) (h : v ≤ m) : (BitVec.ofNat n v).toNat ≤ m :=
  (BitVec.toNat_ofNat v n).trans_le ((Nat.mod_le _ _).trans h)

/-- A state whose result registers are clear, as acceptance, an error and reset leave them. -/
theorem resultsInv_of_clear {s : State} (ho : s.outLen = 0) (hs : s.syms = 0) (ht : s.total = 0) (hr : s.resid = 0) : ResultsInv s := by
  simp [ResultsInv, ho, hs, ht, hr]

theorem resultsInv_storeEncoding {data : List Byte} {s : State} (hlen : data.length < 2 ^ 32)
    (hfit : encodeSize data ≤ s.outSize.toNat) : ResultsInv (storeEncoding data s) :=
  ⟨toNat_ofNat_le 32 hfit, toNat_ofNat_le 9 (entryList_length_le _),
    Nat.lt_of_le_of_lt (toNat_ofNat_le 40 le_rfl) hlen, toNat_ofNat_le 4 (by omega)⟩

theorem resultsInv_storeDecoding {c : List Byte} {k : Container} {w : WalkState} (n : Nat) {s : State}
    (hok : decodeContainer s.outSize.toNat c = .ok (k, w)) : ResultsInv (storeDecoding k w n s) := by
  obtain ⟨hparse, hfit, _, _⟩ := decodeContainer_ok hok
  obtain ⟨⟨_, hlen, _, _⟩, hresid⟩ := parseContainer_ok hparse
  exact ⟨toNat_ofNat_le 32 hfit, toNat_ofNat_le 9 hlen,
    Nat.lt_of_le_of_lt (toNat_ofNat_le 40 hfit) s.outSize.isLt, toNat_ofNat_le 4 hresid⟩

theorem stepInvariant_results : StepInvariant ResultsInv where
  own _ _ _ _ _ h := h
  ctrl _ _ h _ := h
  acknowledge _ h _ := h
  inLen _ _ h _ := h
  accept _ _ _ _ _ := resultsInv_of_clear rfl rfl rfl rfl
  writeIn _ _ _ h _ _ := h
  writeOut _ _ _ h _ _ := h
  reset _ _ _ := resultsInv_of_clear rfl rfl rfl rfl
  raised _ _ _ _ _ := resultsInv_of_clear rfl rfl rfl rfl
  encoded s _ _ _ hlen hfit := resultsInv_storeEncoding (hlen ▸ s.inLen.isLt) hfit
  decoded _ _ _ _ n _ _ hok := resultsInv_storeDecoding n hok

/-- Settles O57: each case of the step leaves the result registers alone, clears them, or stores values in their ranges. -/
theorem stepKeepsResultsInv : Obligations.StepKeepsResultsInv := fun _ _ h ht => stepInvariant_results.of_step h ht

/-! ### `STATUS` and the phase (R27, R301) -/

/-- The codes of R301 are 1 to 8. -/
theorem code_range (e : CommandError) : 1 ≤ e.code.toNat ∧ e.code.toNat ≤ 8 := by
  cases e <;> decide

/-- A state with no error pending, while `DONE` and the result registers are clear if it is BUSY. -/
theorem statusInv_of_no_error {s : State} (he : s.err = false) (hc : s.errCode = 0)
    (hb : s.phase = .busy → s.done = false ∧ s.outLen = 0 ∧ s.syms = 0 ∧ s.total = 0 ∧ s.resid = 0) : StatusInv s :=
  ⟨fun h => ⟨(hb h).1, he, (hb h).2⟩, fun _ => hc, fun h => absurd (he ▸ h) Bool.false_ne_true⟩

theorem statusInv_acknowledge {s : State} (h : StatusInv s) : StatusInv s.acknowledge := by
  obtain ⟨hbusy, _, _⟩ := h
  refine statusInv_of_no_error rfl rfl fun hp => ?_
  obtain ⟨_, _, hresults⟩ := hbusy hp
  exact ⟨rfl, hresults⟩

theorem statusInv_raise (s : State) (e : CommandError) (k : Nat) : StatusInv ((s.beginCommand.drew k).raise e) :=
  ⟨nofun, nofun, fun _ => ⟨rfl, (code_range e).1, (code_range e).2, rfl, rfl, rfl, rfl⟩⟩

theorem stepInvariant_status : StepInvariant StatusInv where
  own _ _ _ _ _ h := h
  ctrl _ _ h _ := h
  acknowledge _ h _ := statusInv_acknowledge h
  inLen _ _ h _ := h
  accept _ _ _ _ _ := statusInv_of_no_error rfl rfl fun _ => ⟨rfl, rfl, rfl, rfl, rfl⟩
  writeIn _ _ _ h _ _ := h
  writeOut _ _ _ h _ _ := h
  reset _ _ _ := statusInv_of_no_error rfl rfl nofun
  raised s e k _ _ := statusInv_raise s e k
  encoded _ _ _ _ _ _ := statusInv_of_no_error rfl rfl nofun
  decoded _ _ _ _ _ _ _ _ := statusInv_of_no_error rfl rfl nofun

/-- Settles O56: acceptance clears what BUSY asks for, a completion raises `DONE` alone, and an error entry on the state after acceptance has
its code and clear results. -/
theorem stepKeepsStatusInv : Obligations.StepKeepsStatusInv := fun _ _ h ht => stepInvariant_status.of_step h ht

/-! ### The length of what `ENCODE` writes (R142, R225), which its check against `OUT_SIZE` relies on -/

theorem toFinset_allSymbols : allSymbols.toFinset = Finset.univ := by
  refine Finset.eq_univ_of_forall fun s => List.mem_toFinset.2 (List.mem_map.2 ⟨s.toNat, ?_, ?_⟩)
  · simpa using s.isLt
  · simp

theorem nodup_allSymbols : allSymbols.Nodup :=
  List.Nodup.map_on (fun x hx y hy h => by
    rw [List.mem_range] at hx hy
    simpa [Nat.mod_eq_of_lt, hx, hy] using congrArg BitVec.toNat h) List.nodup_range

/-- A sum over the entry list is one over all symbols, since a symbol with no entry has frequency 0 (R171). -/
theorem sum_entryList (freq : Byte → Word) (g : Byte → Nat) :
    ((entryList freq).map fun e => e.freq.toNat * g e.sym).sum = ∑ s, (freq s).toNat * g s := by
  have hsum : ∀ l : List Byte,
      ((l.filterMap fun s => if freq s = 0 then none else some (⟨s, freq s⟩ : Entry)).map fun e => e.freq.toNat * g e.sym).sum =
        (l.map fun s => (freq s).toNat * g s).sum := by
    intro l
    induction l with
    | nil => rfl
    | cons s l ih =>
      rw [List.filterMap_cons, List.map_cons, List.sum_cons, ← ih]
      by_cases h : freq s = 0
      · rw [if_pos h]; simp [h]
      · rw [if_neg h, List.map_cons, List.sum_cons]
  rw [entryList, hsum, ← List.sum_toFinset _ nodup_allSymbols, toFinset_allSymbols]

/-- A sum over the data, byte by byte, is one over the symbols, each as often as it occurs. -/
theorem sum_map_eq_sum_count (data : List Byte) (g : Byte → Nat) : (data.map g).sum = ∑ s, data.count s * g s := by
  rw [Finset.sum_list_map_count]
  refine Finset.sum_subset (Finset.subset_univ _) fun s _ hs => ?_
  rw [List.count_eq_zero_of_not_mem (mt List.mem_toFinset.2 hs), zero_nsmul]

/-- `Bt` counts the bits of the coded stream, each symbol's frequency being exact below 2^32 bytes (R142, R223). -/
theorem symbolBits_length {data : List Byte} (h : data.length < 2 ^ 32) :
    (symbolBits (encodeCodes data) data).length = encodeBits data := by
  calc (symbolBits (encodeCodes data) data).length
      = (data.map fun s => (codeOf (encodeCodes data) s).length).sum := List.length_flatMap
    _ = ∑ s, data.count s * (codeOf (encodeCodes data) s).length := sum_map_eq_sum_count ..
    _ = ∑ s, (frequencyOf data s).toNat * (codeOf (encodeCodes data) s).length := by simp only [frequencyOf_toNat h]
    _ = encodeBits data := (sum_entryList ..).symm

@[simp] theorem headerBytes_length (es : List Entry) : (headerBytes es).length = 4 + 5 * es.length := by
  simp [headerBytes, List.length_flatMap, Nat.mul_comm]

@[simp] theorem trailerBytes_length (buf : Bits) : (trailerBytes buf).length = 2 := rfl

/-- The symbol stream adds a byte for every eight of its bits (R222, R223). -/
theorem packSymbols_out_length (es : List Entry) (cs : Codes) (data : List Byte) :
    (packSymbols es cs data).out.length = 4 + 5 * es.length + (symbolBits cs data).length / 8 := by
  have hbits := foldl_appendBit_length (symbolBits cs data) ⟨headerBytes es, []⟩ (by simp)
  have hbuf := foldl_appendBit_buf_lt (symbolBits cs data) ⟨headerBytes es, []⟩ (by simp)
  simp only [headerBytes_length, List.length_nil] at hbits
  rw [packSymbols, appendSymbols_eq]
  omega

/-- The container `ENCODE` writes is as long as the size it checked (R225). -/
theorem encodeContainer_length {data : List Byte} (h : data.length < 2 ^ 32) :
    (encodeContainer data).length = encodeSize data := by
  rw [encodeContainer, packContainer, List.length_append, packSymbols_out_length, trailerBytes_length, symbolBits_length h]
  rfl

/-! ### The buffers (R38, R39) -/

theorem within_nil (size : Word) : Memory.within [] size := nofun

/-- A byte the host stores in `IN`. -/
theorem buffersInv_writeIn {s : State} {a : Nat} (b : Byte) (h : BuffersInv s) (ha : a < s.inSize.toNat) :
    BuffersInv { s with inBuf := Memory.write s.inBuf a b } := by
  obtain ⟨hwi, hii, hwo, hio⟩ := h
  exact ⟨wf_write a b hwi, within_write b hii ha, hwo, hio⟩

/-- Bytes stored in `OUT` from address `a` on, the host's one or a command's output. -/
theorem buffersInv_writeOut {s : State} {a : Nat} {bs : List Byte} (h : BuffersInv s) (hfit : a + bs.length ≤ s.outSize.toNat) :
    BuffersInv { s with outBuf := Memory.writeBytes s.outBuf a bs } := by
  obtain ⟨hwi, hii, hwo, hio⟩ := h
  exact ⟨hwi, hii, wf_writeBytes bs a hwo, within_writeBytes bs a hio hfit⟩

theorem buffersInv_raise {s : State} (e : CommandError) (h : BuffersInv s) : BuffersInv (s.raise e) := by
  obtain ⟨hwi, hii, _, _⟩ := h
  exact ⟨hwi, hii, wf_nil, within_nil _⟩

theorem buffersInv_encoded {s : State} {data : List Byte} (h : BuffersInv s) (hlen : data.length < 2 ^ 32)
    (hfit : encodeSize data ≤ s.outSize.toNat) :
    BuffersInv (storeEncoding data (s.beginCommand.drew data.length)).finishOk :=
  buffersInv_writeOut (a := 0) h (by rw [encodeContainer_length hlen]; omega)

theorem buffersInv_decoded {s : State} {c : List Byte} {k : Container} {w : WalkState} (n : Nat) (h : BuffersInv s)
    (hok : decodeContainer s.outSize.toNat c = .ok (k, w)) :
    BuffersInv (storeDecoding k w n (s.beginCommand.drew n)).finishOk := by
  obtain ⟨_, hfit, _, hout⟩ := decodeContainer_ok hok
  exact buffersInv_writeOut (a := 0) h (by omega)

theorem stepInvariant_buffers : StepInvariant BuffersInv where
  own _ _ _ _ _ h := h
  ctrl _ _ h _ := h
  acknowledge _ h _ := h
  inLen _ _ h _ := h
  accept _ _ h _ _ := h
  writeIn _ _ b h _ ha := buffersInv_writeIn b h ha
  writeOut _ _ b h _ ha := buffersInv_writeOut (bs := [b]) h ha
  reset _ _ _ := ⟨wf_nil, within_nil _, wf_nil, within_nil _⟩
  raised s e k h _ := buffersInv_raise (s := s.beginCommand.drew k) e h
  encoded s _ h _ hlen hfit := buffersInv_encoded h (hlen ▸ s.inLen.isLt) hfit
  decoded _ _ _ _ n h _ hok := buffersInv_decoded n h hok

/-- Settles O55: a byte the host stores is admitted only inside the buffer, and the output a command stores is as long as the size it has checked
against `OUT_SIZE` (`encodeContainer_length`, `decodeContainer_ok`). -/
theorem stepKeepsBuffersInv : Obligations.StepKeepsBuffersInv := fun _ _ h ht => stepInvariant_buffers.of_step h ht

/-! ### The merge loop, one merge at a time (R183) -/

/-- With two nodes or more in the queue, the loop merges two of them, `a` and `b`, and goes on with the rest. -/
theorem mergeLoop_merges (seq : Nat) (t v : Tree) (vs : List Tree) :
    ∃ a b rest, (a :: b :: rest).Perm (t :: v :: vs) ∧
      mergeLoop (v :: vs).length seq t (v :: vs) = mergeLoop rest.length (seq + 1) (mergeNodes a b seq) rest := by
  have hlen := extractMin_length t (v :: vs)
  obtain ⟨x, xs, hx⟩ : ∃ x xs, (extractMin t (v :: vs)).2 = x :: xs := List.exists_cons_of_length_pos (by simp [hlen])
  have hrest : (extractMin x xs).2.length = vs.length := by simpa [hx, extractMin_length] using hlen
  refine ⟨(extractMin t (v :: vs)).1, (extractMin x xs).1, (extractMin x xs).2, ?_, ?_⟩
  · exact ((extractMin_perm xs x).cons _).trans (hx ▸ extractMin_perm (v :: vs) t)
  · simp [mergeLoop, hx, hrest]

/-- A property of the next sequence number and the queue, whatever its order, that a merge keeps holds when the loop ends. -/
theorem mergeLoop_invariant {P : Nat → List Tree → Prop} (hp : ∀ {n x y}, x.Perm y → P n x → P n y)
    (hm : ∀ {a b n rest}, P n (a :: b :: rest) → P (n + 1) (mergeNodes a b n :: rest)) (ts : List Tree) :
    ∀ {seq t}, P seq (t :: ts) → P (seq + ts.length) [mergeLoop ts.length seq t ts] := by
  induction hn : ts.length generalizing ts with
  | zero =>
    intro seq t h
    rw [List.length_eq_zero_iff.1 hn] at h
    exact h
  | succ n ih =>
    intro seq t h
    obtain ⟨v, vs, rfl⟩ := List.exists_cons_of_length_eq_add_one hn
    obtain ⟨a, b, rest, hperm, hloop⟩ := mergeLoop_merges seq t v vs
    have hrest : rest.length = n := by simpa [hn] using hperm.length_eq
    rw [← hn, hloop, hrest, hn, Nat.add_comm n, ← Nat.add_assoc]
    exact ih rest hrest (hm (hp hperm.symm h))

/-- What holds of the leaves and of every merge holds of the built tree, for which L - 1 sequence numbers more are used (R184). -/
theorem buildTree_invariant {P : Nat → List Tree → Prop} (hp : ∀ {n x y}, x.Perm y → P n x → P n y)
    (hm : ∀ {a b n rest}, P n (a :: b :: rest) → P (n + 1) (mergeNodes a b n :: rest)) {es : List Entry} (hne : 1 ≤ es.length)
    (h : P es.length (seeds es 0)) : P (2 * es.length - 1) [buildTree es] := by
  have hlen := seeds_length es 0
  unfold buildTree
  cases hs : seeds es 0 with
  | nil => simp [hs] at hlen; omega
  | cons t ts =>
    rw [hs, List.length_cons] at hlen
    rw [hs] at h
    rw [show 2 * es.length - 1 = es.length + ts.length by omega]
    exact mergeLoop_invariant (P := P) hp hm ts h

/-! ### The nodes of the queue: their sequence numbers and weights (R17, R184) -/

/-- All nodes of the trees of a queue. -/
def queueNodes (q : List Tree) : List Tree := q.flatMap Tree.subtrees

theorem queueNodes_perm {x y : List Tree} (h : x.Perm y) : (queueNodes x).Perm (queueNodes y) := h.flatMap_right _

@[simp] theorem weight_mergeNodes (a b : Tree) (seq : Nat) : (mergeNodes a b seq).weight = a.weight + b.weight := rfl

/-- A merge adds one node. -/
theorem queueNodes_merge (a b : Tree) (seq : Nat) (rest : List Tree) :
    (queueNodes (mergeNodes a b seq :: rest)).Perm (mergeNodes a b seq :: queueNodes (a :: b :: rest)) := by
  simp only [queueNodes, List.flatMap_cons, mergeNodes, Tree.subtrees, List.cons_append, ← List.append_assoc]
  exact (List.perm_append_comm.append_right _).cons _

theorem queueNodes_seeds (es : List Entry) : ∀ i, queueNodes (seeds es i) = seeds es i := by
  induction es with
  | nil => exact fun _ => rfl
  | cons e es ih => exact fun i => congrArg (Tree.leaf e.sym e.freq.toNat i :: ·) (ih (i + 1))

theorem map_seq_seeds (es : List Entry) : ∀ i, (seeds es i).map Tree.seq = List.range' i es.length := by
  induction es with
  | nil => exact fun _ => rfl
  | cons e es ih => exact fun i => congrArg (i :: ·) (ih (i + 1))

theorem map_weight_seeds (es : List Entry) : ∀ i, (seeds es i).map Tree.weight = es.map fun e => e.freq.toNat := by
  induction es with
  | nil => exact fun _ => rfl
  | cons e es ih => exact fun i => congrArg (e.freq.toNat :: ·) (ih (i + 1))

/-- What the builder keeps: the nodes are numbered 0, 1, … in some order, below the next number `seq`; the weights of the queue add up to
`total`, and no node is heavier. -/
def QueueInv (total seq : Nat) (q : List Tree) : Prop :=
  ((queueNodes q).map Tree.seq).Perm (List.range seq) ∧ (q.map Tree.weight).sum = total ∧ ∀ n ∈ queueNodes q, n.weight ≤ total

theorem queueInv_perm {total seq : Nat} {x y : List Tree} (h : x.Perm y) (hx : QueueInv total seq x) : QueueInv total seq y := by
  obtain ⟨hseq, hsum, hle⟩ := hx
  have hnodes := queueNodes_perm h
  exact ⟨(hnodes.map _).symm.trans hseq, (h.map _).sum_eq.symm.trans hsum, fun n hn => hle n (hnodes.mem_iff.2 hn)⟩

theorem queueInv_merge {total seq : Nat} {a b : Tree} {rest : List Tree} (h : QueueInv total seq (a :: b :: rest)) :
    QueueInv total (seq + 1) (mergeNodes a b seq :: rest) := by
  obtain ⟨hseq, hsum, hle⟩ := h
  have hnodes := queueNodes_merge a b seq rest
  simp only [List.map_cons, List.sum_cons] at hsum
  refine ⟨?_, ?_, ?_⟩
  · rw [List.range_succ]
    exact (hnodes.map _).trans ((hseq.cons seq).trans (List.perm_append_singleton seq _).symm)
  · simp only [List.map_cons, List.sum_cons, weight_mergeNodes]
    omega
  · intro n hn
    rcases List.mem_cons.1 (hnodes.mem_iff.1 hn) with rfl | hn
    · rw [weight_mergeNodes]
      omega
    · exact hle n hn

theorem queueInv_seeds (es : List Entry) : QueueInv (totalCount es) es.length (seeds es 0) := by
  have hsum : ((seeds es 0).map Tree.weight).sum = totalCount es := congrArg List.sum (map_weight_seeds es 0)
  refine ⟨?_, hsum, fun n hn => ?_⟩
  · rw [queueNodes_seeds, map_seq_seeds, ← List.range_eq_range']
  · rw [queueNodes_seeds] at hn
    exact hsum ▸ List.le_sum_of_mem (List.mem_map_of_mem hn)

/-- The nodes of the built tree: numbered 0 to 2L - 2, and none heavier than the total count (R184, R186). -/
theorem buildTree_nodes {es : List Entry} (h : 1 ≤ es.length) :
    ((buildTree es).subtrees.map Tree.seq).Perm (List.range (2 * es.length - 1)) ∧
      ∀ n ∈ (buildTree es).subtrees, n.weight ≤ totalCount es := by
  obtain ⟨hseq, _, hle⟩ := buildTree_invariant (P := QueueInv (totalCount es)) queueInv_perm queueInv_merge h (queueInv_seeds es)
  simp only [queueNodes, List.flatMap_cons, List.flatMap_nil, List.append_nil] at hseq hle
  exact ⟨hseq, hle⟩

/-- At most 256 frequencies of 32 bits add up to less than 2^40 (R53). -/
theorem totalCount_lt {es : List Entry} (h : es.length ≤ 256) : totalCount es < 2 ^ 40 := by
  have hle : totalCount es ≤ es.length * (2 ^ 32 - 1) := by
    refine (List.sum_le_card_nsmul _ (2 ^ 32 - 1) fun x hx => ?_).trans (by simp)
    obtain ⟨e, _, rfl⟩ := List.mem_map.1 hx
    exact Nat.le_pred_of_lt e.freq.isLt
  omega

/-! ### The arena (R42) -/

@[simp] theorem record_seq (t : Tree) : t.record.seq = BitVec.ofNat 9 t.seq := by cases t <;> rfl

@[simp] theorem record_w (t : Tree) : t.record.w = BitVec.ofNat 40 t.weight := by cases t <;> rfl

/-- The node of a tree that has the sequence number `i`, where one has. -/
def Tree.nodeOf (t : Tree) (i : Nat) : Tree := (t.subtrees.find? fun n => n.seq == i).getD t

section
variable {t : Tree} {k : Nat} (h : (t.subtrees.map Tree.seq).Perm (List.range k))
include h

theorem find?_nodeOf {i : Nat} (hi : i < k) : t.subtrees.find? (fun n => n.seq == i) = some (t.nodeOf i) := by
  obtain ⟨n, hn, hs⟩ := List.mem_map.1 (h.mem_iff.2 (List.mem_range.2 hi))
  obtain ⟨m, hm⟩ := Option.isSome_iff_exists.1 (List.find?_isSome (p := fun n => n.seq == i).2 ⟨n, hn, beq_iff_eq.2 hs⟩)
  rw [Tree.nodeOf, hm]
  rfl

theorem nodeOf_mem {i : Nat} (hi : i < k) : t.nodeOf i ∈ t.subtrees := List.mem_of_find?_eq_some (find?_nodeOf h hi)

theorem nodeOf_seq {i : Nat} (hi : i < k) : (t.nodeOf i).seq = i := by
  simpa using List.find?_some (find?_nodeOf h hi)

/-- A tree numbered 0 to `k - 1` has a record for each number. -/
theorem arena_eq : t.arena = (List.range k).map fun i => (t.nodeOf i).record := by
  have hk : t.subtrees.length = k := by simpa using h.length_eq
  rw [Tree.arena, hk, List.filterMap_eq_map_iff_forall_eq_some]
  intro i hi
  rw [find?_nodeOf h (List.mem_range.1 hi)]
  rfl

end

/-- Settles O26: the nodes of the built tree are numbered 0 to 2L - 2, which fit 9 bits, and weigh at most `T`, which fits 40. -/
theorem arenaHoldsTheTreeExactly : Obligations.ArenaHoldsTheTreeExactly := by
  intro es ⟨hpos, hlen, _, _⟩
  obtain ⟨hseq, hweight⟩ := buildTree_nodes hpos
  have htotal := totalCount_lt hlen
  rw [arena_eq hseq]
  refine ⟨by simp, fun i hi => ?_⟩
  have hmem := nodeOf_mem hseq hi
  have hi' := nodeOf_seq hseq hi
  have hw := hweight _ hmem
  refine ⟨_, hmem, hi', _, by simp [hi], ?_, ?_, rfl⟩
  · rw [record_seq, hi', BitVec.toNat_ofNat]
    omega
  · rw [record_w, BitVec.toNat_ofNat]
    omega

/-! ### A placed command (log 2) -/

/-- The word of a command has 32 bits, so nothing of it is cut off. -/
theorem withFetchWord_encode (s : State) (i : Instr) : s.withFetchWord 32 (encode i).toNat = placeCommand (encode i) s := by
  rw [State.withFetchWord, Nat.mod_eq_of_lt (encode i).isLt, BitVec.ofNat_toNat, BitVec.setWidth_eq]

theorem decodeWord_encode (i : Instr) : decodeWord (encode i) = .ok i := by
  cases i <;> rfl

theorem engineTurn_of_command {s : State} {i : Instr} (h : s.command = encode i) : engineTurn s = exec i s := by
  rw [engineTurn, h, decodeWord_encode]

/-- A placed command that is not `NOP` stands as the accepted one, with no turn left to the host. -/
theorem placeCommand_encode {i : Instr} (hi : i ≠ .nop) (s : State) :
    placeCommand (encode i) s = { s with rst := false, phase := .busy, command := encode i, latency := 0 } := by
  cases i with
  | nop => exact absurd rfl hi
  | encode => rfl
  | decode => rfl

/-- Settles O6: `NOP` runs at its write to `CMD`, the host's next transaction, and the other two are run by the engine. -/
theorem placedCommandRunsNext : Obligations.PlacedCommandRunsNext := by
  intro s i
  rw [withFetchWord_encode]
  by_cases hi : i = .nop
  · subst hi
    exact ⟨{ s with rst := false, phase := .idle }, step_idle (s := placeCommand (encode .nop) s) rfl rfl,
      rfl, rfl, rfl, rfl, rfl, rfl, rfl, rfl⟩
  · rw [placeCommand_encode hi]
    exact ⟨_, (step_engine rfl rfl).trans (engineTurn_of_command rfl), rfl, rfl, rfl, rfl, rfl, rfl, rfl, rfl⟩

/-! ### The register map (R23 to R36) -/

theorem ctrlWord_eq (s : State) : ctrlWord s = if s.ctrlIE then 1 else 0 := by
  unfold ctrlWord
  cases s.ctrlIE <;> rfl

/-- The two words `T` is read in, by its value (R31, R32). -/
theorem readReg_totalLo (s : State) : readReg s .totalLo = BitVec.ofNat 32 s.total.toNat := by
  simp [readReg, BitVec.extractLsb', BitVec.ofNat_toNat]

theorem readReg_totalHi (s : State) : readReg s .totalHi = BitVec.ofNat 32 (s.total.toNat / 2 ^ 32) := by
  have := s.total.isLt
  refine BitVec.eq_of_toNat_eq ?_
  simp only [readReg, BitVec.toNat_setWidth, BitVec.extractLsb'_toNat, BitVec.toNat_ofNat, Nat.shiftRight_eq_div_pow]
  omega

/-- A write that a register ignores while `rst` is low changes nothing at any time (R340). -/
theorem hostOp_writeReg_ignored {s : State} {r : Reg} {offset : Nat} {v : Word} (ho : regAt offset = some r)
    (hw : writeReg r v s = .next s) : hostOp (hostWR offset v) s = .next s := by
  cases hr : s.rst with
  | false => rw [hostOp_writeReg v hr ho, hw]
  | true => simp [hostOp, hostWR, hostWrite, regOperand, ho, hr]

/-- Settles O44: a read answers `readReg` of the register at the offset, and the writes listed are ones `writeReg` ignores. -/
theorem registerMap : Obligations.RegisterMap := by
  refine ⟨fun s => ?_, ?_, ?_⟩
  · rw [← ctrlWord_eq, ← readReg_totalLo, ← readReg_totalHi]
    exact ⟨hostOp_readReg (r := .id) rfl, hostOp_readReg (r := .ctrl) rfl, hostOp_readReg (r := .cmd) rfl,
      hostOp_readReg (r := .status) rfl, hostOp_readReg (r := .inLen) rfl, hostOp_readReg (r := .outLen) rfl,
      hostOp_readReg (r := .syms) rfl, hostOp_readReg (r := .totalLo) rfl, hostOp_readReg (r := .totalHi) rfl,
      hostOp_readReg (r := .resid) rfl, hostOp_readReg (r := .inSizeR) rfl, hostOp_readReg (r := .outSizeR) rfl⟩
  · intro s offset ho
    simp only [List.mem_cons, List.not_mem_nil, or_false] at ho
    rcases ho with rfl | rfl | rfl | rfl <;> exact hostOp_readReg (r := .reserved) rfl
  · intro s offset v ho
    simp only [List.mem_cons, List.not_mem_nil, or_false] at ho
    rcases ho with rfl | rfl | rfl | rfl | rfl | rfl | rfl | rfl | rfl | rfl | rfl | rfl <;> exact hostOp_writeReg_ignored rfl rfl

/-! ### `CTRL` and `IN_LEN` (R25, R28) -/

/-- A `CTRL` write keeps bit 0. -/
theorem ctrlWord_write (s : State) (v : Word) : ctrlWord { s with ctrlIE := v.getLsbD 0 } = v &&& 1 :=
  BitVec.and_one_eq_setWidth_ofBool_getLsbD.symm

/-- Settles O45, from the write of each of the two registers and, for the read back, `ctrlWord_write`. -/
theorem ctrlAndInLenWrites : Obligations.CtrlAndInLenWrites := by
  intro s v hr
  have hctrl : hostOp (hostWR 0x04 v) s = .next { s with ctrlIE := v.getLsbD 0 } := hostOp_writeReg (r := .ctrl) v hr rfl
  have hinLen : hostOp (hostWR 0x10 v) s = .next (if s.busy then s else { s with inLen := v }) :=
    hostOp_writeReg (r := .inLen) v hr rfl
  refine ⟨hctrl, fun t ht => ?_, fun hp => ?_, fun hp => ?_⟩
  · rw [hctrl] at ht
    cases ht
    rw [hostOp_readReg (r := .ctrl) rfl, ← ctrlWord_write]
    rfl
  · rw [hinLen]; simp [hp]
  · rw [hinLen]; simp [hp]

/-! ### `STATUS` and `irq` (R27, R37) -/

/-- Settles O46: each field is found by leaving off the fields below it. -/
theorem statusWordFields : Obligations.StatusWordFields := by
  intro s
  simp only [statusWord]
  refine ⟨?_, ?_, ?_, ?_, ?_, ?_⟩
  · rw [BitVec.getLsbD_append]
    simp
  · iterate 2 rw [BitVec.getLsbD_append]
    simp
  · iterate 3 rw [BitVec.getLsbD_append]
    simp
  · iterate 4 rw [BitVec.getLsbD_append]
    simp
  · iterate 4 rw [BitVec.extractLsb'_append_eq_of_le (by decide)]
    exact BitVec.extractLsb'_append_eq_right
  · iterate 4 rw [BitVec.extractLsb'_append_eq_of_le (by decide)]
    exact BitVec.extractLsb'_append_eq_left

/-- Settles O48: bit 0 of `CTRL` is `IE`, and bit 1 of `STATUS` is `DONE`. -/
theorem irqIsEnableAndDone : Obligations.IrqIsEnableAndDone := by
  intro s
  obtain ⟨_, hdone, _⟩ := statusWordFields s
  rw [hdone, ctrlWord]
  simp [irq]

/-- Settles O47, from the write of `STATUS` and the state the acknowledge leaves. -/
theorem statusWriteAcknowledges : Obligations.StatusWriteAcknowledges := by
  intro s v hr
  have hstatus : hostOp (hostWR 0x0C v) s = .next (if !s.busy && v.getLsbD 1 then s.acknowledge else s) :=
    hostOp_writeReg (r := .status) v hr rfl
  refine ⟨fun hp hv => ⟨s.acknowledge, by simp [hstatus, hp, hv], rfl, ?_, ?_⟩, fun h => ?_⟩
  · simp [statusWord, hp]
  · simp [irq]
  · rcases h with hv | hp
    · rw [hstatus, hv, Bool.and_false, if_neg Bool.false_ne_true]
    · simp [hstatus, hp]

/-! ### Bytes the host writes (R38, R39, R62) -/

@[simp] theorem byteLane_setWidth (b : Byte) : byteLane (b.setWidth 32) = b := by
  simp [byteLane]

/-- Settles O52, from the two laws of a store, `read_write_same` and `read_write_other`. -/
theorem bufferWrites : Obligations.BufferWrites := by
  intro s a b hp hr
  refine ⟨fun ha => ⟨{ s with inBuf := Memory.write s.inBuf a b }, ?_, read_write_same .., fun x hx => read_write_other _ b hx, rfl⟩,
    fun ha => ⟨{ s with outBuf := Memory.write s.outBuf a b }, ?_, read_write_same .., fun x hx => read_write_other _ b hx, rfl⟩⟩
  · simp [hostOp, hostWB, hostWrite, byteAdmitted, ha, hp, hr]
  · simp [hostOp, hostWrite, byteAdmitted, ha, hp, hr]

end Sys2Proof.Machine
end

section
/-! PROOFS. The memory map and its accesses (`20_memory.md`): which accesses are admitted (R61, R62), what a read returns (R67, R72), what a
command reads and writes (R66, R68, R69), and that a running command cannot be disturbed (R71). -/

namespace Sys2Proof.Machine

/-! ### What a command hands the host, as a function of the parameters, `IN_LEN` and the bytes read -/

/-- What a command that completes without error leaves for the host: the bytes it stores from `OUT[0]` on and the result registers. -/
structure Output where
  bytes : List Byte
  syms : BitVec 9
  total : BitVec 40
  resid : BitVec 4

/-- The output of `ENCODE`, or its first error (R142, R310). -/
def encodeOutput (s : State) : Except CommandError Output :=
  let data := inSnapshot s s.inLen.toNat
  if s.inLen = 0 then .error .emptyInput
  else if s.inSize.toNat < s.inLen.toNat then .error .inputRange
  else if s.outSize.toNat < encodeSize data then .error .outputOverflow
  else .ok ⟨encodeContainer data, BitVec.ofNat 9 (encodeEntries data).length, BitVec.ofNat 40 data.length,
    BitVec.ofNat 4 (encodeBits data % 8)⟩

/-- The output of `DECODE`, or its first error (R143, R310). -/
def decodeOutput (s : State) : Except CommandError Output :=
  if s.inSize.toNat < s.inLen.toNat then .error .inputRange
  else
    (decodeContainer s.outSize.toNat (inSnapshot s s.inLen.toNat)).map fun r =>
      ⟨r.2.out, BitVec.ofNat 9 r.1.entries.length, BitVec.ofNat 40 (totalCount r.1.entries), BitVec.ofNat 4 r.1.resid⟩

/-- The output of the command a word was decoded to. An illegal word has its error (R144), and `NOP`, which is never accepted (R140), has no
output. -/
def commandOutput (d : Except DecodeError Instr) (s : State) : Except CommandError Output :=
  match d with
  | .ok .encode => encodeOutput s
  | .ok .decode => decodeOutput s
  | _ => .error .illegalCommand

/-- The state a command with that output leaves, up to the internal state `g` and the count of draws `n`, which no host sees (R51). -/
def State.completeWith (s : State) (g : Engine) (n : Nat) : Except CommandError Output → State
  | .error e => { s.beginCommand.raise e with engine := g, draws := n }
  | .ok o =>
    { s.beginCommand.finishOk with
      outBuf := Memory.writeBytes s.outBuf 0 o.bytes
      outLen := BitVec.ofNat 32 o.bytes.length
      syms := o.syms, total := o.total, resid := o.resid
      engine := g, draws := n }

theorem runEncode_completeWith (s : State) : ∃ g n, runEncode s.beginCommand = s.completeWith g n (encodeOutput s) := by
  rcases runEncode_cases s.beginCommand with ⟨h0, hr⟩ | ⟨h0, h1, hr⟩ | ⟨h0, h1, h2, hr⟩ | ⟨h0, h1, h2, hr⟩ <;> rw [hr]
  · have ho : encodeOutput s = .error .emptyInput := if_pos h0
    exact ⟨_, _, by rw [ho]; rfl⟩
  · have ho : encodeOutput s = .error .inputRange := (if_neg h0).trans (if_pos h1)
    exact ⟨_, _, by rw [ho]; rfl⟩
  · have ho : encodeOutput s = .error .outputOverflow := (if_neg h0).trans ((if_neg (Nat.not_lt.2 h1)).trans (if_pos h2))
    exact ⟨_, _, by rw [ho]; rfl⟩
  · have ho := (if_neg h0).trans ((if_neg (Nat.not_lt.2 h1)).trans (if_neg (Nat.not_lt.2 h2))) (a := encodeOutput s)
    have hlen := encodeContainer_length (data := inSnapshot s s.inLen.toNat) (by simpa using s.inLen.isLt)
    exact ⟨_, _, by rw [ho, State.completeWith, hlen]; rfl⟩

theorem runDecode_completeWith (s : State) : ∃ g n, runDecode s.beginCommand = s.completeWith g n (decodeOutput s) := by
  rcases runDecode_cases s.beginCommand with ⟨h1, hr⟩ | ⟨h1, e, he, hr⟩ | ⟨h1, k, w, hok, hr⟩ <;> rw [hr]
  · have ho : decodeOutput s = .error .inputRange := if_pos h1
    exact ⟨_, _, by rw [ho]; rfl⟩
  · have ho : decodeOutput s = .error e := (if_neg (Nat.not_lt.2 h1)).trans (congrArg _ he)
    exact ⟨_, _, by rw [ho]; rfl⟩
  · have ho := (if_neg (Nat.not_lt.2 h1)).trans (congrArg _ hok) (a := decodeOutput s)
    obtain ⟨_, _, _, hlen⟩ := decodeContainer_ok hok
    exact ⟨_, _, by rw [ho, Except.map, State.completeWith, hlen]; rfl⟩

/-- A command other than `NOP` always completes, with its output or its error. -/
theorem exec_completeWith {i : Instr} (hi : i ≠ .nop) (s : State) :
    ∃ g n, exec i s = .next (s.completeWith g n (commandOutput (.ok i) s)) := by
  cases i with
  | nop => exact absurd rfl hi
  | encode =>
    obtain ⟨g, n, h⟩ := runEncode_completeWith s
    exact ⟨g, n, congrArg _ h⟩
  | decode =>
    obtain ⟨g, n, h⟩ := runDecode_completeWith s
    exact ⟨g, n, congrArg _ h⟩

theorem engineTurn_completeWith {s : State} (hc : decodeWord s.command ≠ .ok .nop) :
    ∃ g n, engineTurn s = .next (s.completeWith g n (commandOutput (decodeWord s.command) s)) := by
  unfold engineTurn
  cases hd : decodeWord s.command with
  | error e => exact ⟨_, _, rfl⟩
  | ok i => exact exec_completeWith (fun hi => hc (hi ▸ hd)) s

/-! ### What the output depends on, and how much of `OUT` it fills -/

/-- The bytes read are equal where they hold the same defined values, whatever the draws. -/
theorem inSnapshot_congr {s t : State} {n : Nat}
    (h : ∀ a, a < n → (Memory.read s.inBuf a).isSome = true ∧ Memory.read t.inBuf a = Memory.read s.inBuf a) :
    inSnapshot t n = inSnapshot s n := by
  refine List.map_congr_left fun a ha => ?_
  obtain ⟨hdef, heq⟩ := h a (List.mem_range.1 ha)
  obtain ⟨b, hb⟩ := Option.isSome_iff_exists.1 hdef
  rw [byteAt_of_read hb, byteAt_of_read (heq.trans hb)]

/-- The output is a function of the parameters, `IN_LEN` and, where `IN_LEN` is in range, the bytes read (R148). -/
theorem commandOutput_congr {s t : State} (d : Except DecodeError Instr) (hi : t.inSize = s.inSize) (ho : t.outSize = s.outSize)
    (hl : t.inLen = s.inLen)
    (hread : s.inLen.toNat ≤ s.inSize.toNat → inSnapshot t s.inLen.toNat = inSnapshot s s.inLen.toNat) :
    commandOutput d t = commandOutput d s := by
  by_cases hrange : s.inLen.toNat ≤ s.inSize.toNat
  · simp only [commandOutput, encodeOutput, decodeOutput, hi, ho, hl, hread hrange]
  · simp only [commandOutput, encodeOutput, decodeOutput, hi, hl, Nat.not_le.1 hrange, if_true]

theorem encodeOutput_fits {s : State} {o : Output} (h : encodeOutput s = .ok o) : o.bytes.length ≤ s.outSize.toNat := by
  simp only [encodeOutput] at h
  split_ifs at h with h0 h1 h2
  cases h
  rw [encodeContainer_length (by simpa using s.inLen.isLt)]
  exact Nat.not_lt.1 h2

theorem decodeOutput_fits {s : State} {o : Output} (h : decodeOutput s = .ok o) : o.bytes.length ≤ s.outSize.toNat := by
  unfold decodeOutput at h
  split_ifs at h with h1
  cases hd : decodeContainer s.outSize.toNat (inSnapshot s s.inLen.toNat) with
  | error e => rw [hd] at h; cases h
  | ok r =>
    obtain ⟨_, hfit, _, hlen⟩ := decodeContainer_ok hd
    rw [hd] at h
    cases h
    exact hlen.trans_le hfit

/-- Every output has been checked against `OUT_SIZE` (R142, R143). -/
theorem commandOutput_fits {d : Except DecodeError Instr} {s : State} {o : Output} (h : commandOutput d s = .ok o) :
    o.bytes.length ≤ s.outSize.toNat := by
  match d, h with
  | .ok .encode, h => exact encodeOutput_fits h
  | .ok .decode, h => exact decodeOutput_fits h

/-- `OUT_LEN` is the number of bytes stored (R69). -/
theorem completeWith_outLen {s : State} {o : Output} (h : o.bytes.length ≤ s.outSize.toNat) (g : Engine) (n : Nat) :
    (s.completeWith g n (.ok o)).outLen.toNat = o.bytes.length :=
  Nat.mod_eq_of_lt (h.trans_lt s.outSize.isLt)

/-- Settles O21: a command stores its output from `OUT[0]` on and reports its length, or empties `OUT` with its error. -/
theorem commandWritesExactlyItsOutput : Obligations.CommandWritesExactlyItsOutput := by
  intro i s t hi ht
  obtain ⟨g, n, hexec⟩ := exec_completeWith hi s
  cases hexec.symm.trans ht
  cases ho : commandOutput (.ok i) s with
  | error e => exact ⟨nofun, fun _ _ => rfl⟩
  | ok o =>
    refine ⟨fun _ => ?_, nofun⟩
    rw [completeWith_outLen (commandOutput_fits ho)]
    have hread : ∀ a, Memory.read (s.completeWith g n (.ok o)).outBuf a =
        if 0 ≤ a ∧ a < 0 + o.bytes.length then o.bytes[a]? else Memory.read s.outBuf a := read_writeBytes o.bytes s.outBuf 0
    refine ⟨fun a ha => ⟨o.bytes[a], ?_⟩, fun a ha => ?_⟩
    · rw [hread, if_pos (by omega), List.getElem?_eq_getElem ha]
    · rw [hread, if_neg (by omega)]

/-- Settles O20: `NOP` answers the state itself, and no other command reaches the fields listed, with an output or with an error. -/
theorem commandFrame : Obligations.CommandFrame := by
  intro i s t ht
  by_cases hi : i = .nop
  · subst hi
    cases ht
    exact ⟨rfl, rfl, rfl, rfl, rfl, rfl, rfl, fun _ => rfl, rfl, rfl, rfl, fun _ => rfl⟩
  · obtain ⟨g, n, hexec⟩ := exec_completeWith hi s
    cases hexec.symm.trans ht
    cases commandOutput (.ok i) s <;>
      exact ⟨rfl, rfl, rfl, rfl, rfl, rfl, rfl, fun _ => rfl, rfl, rfl, rfl, fun h => absurd h hi⟩

/-! ### Reads (R67, R72, R345) -/

/-- A byte that is not listed reads as the free value of the draw (R67). -/
theorem byteAt_of_read_none {m : Memory} {a : Nat} (h : Memory.read m a = none) (k : Nat) : Memory.byteAt m a k = Config.freeByte k := by
  simp [Memory.byteAt, h]

theorem byteAdmitted_iff {size : Word} {width offset : Nat} :
    byteAdmitted size width offset = true ↔ width = 1 ∧ offset < size.toNat := by
  simp [byteAdmitted]

/-- Settles O49: it is what a read transaction that is answered does. -/
theorem readsHaveNoSideEffects : Obligations.ReadsHaveNoSideEffects := fun _ _ _ _ _ h => hostRead_next h

/-- Settles O51: an admitted read returns `byteAt` of its buffer, and a read of `OUT` while BUSY the free value. -/
theorem bufferReads : Obligations.BufferReads := by
  intro s a
  constructor
  · intro ha
    refine ⟨Memory.byteAt s.inBuf a s.draws, if_pos (byteAdmitted_iff.2 ⟨rfl, ha⟩), fun c hc => byteAt_of_read hc _,
      fun hn => byteAt_of_read_none hn _⟩
  · intro ha
    have hread : hostOp (hostRB a) s = _ := if_pos (byteAdmitted_iff.2 ⟨rfl, ha⟩)
    refine ⟨_, hread, ?_, ?_⟩
    · intro hp c hc
      simp [hp, byteAt_of_read hc]
    · rintro (hp | hn)
      · simp [hp]
      · simp [byteAt_of_read_none hn]

/-! ### Which accesses are admitted (R61, R62, R344, R345) -/

theorem regAt_isSome_iff (offset : Nat) : (regAt offset).isSome = true ↔ offset % 4 = 0 ∧ offset ≤ 0x3C := by
  by_cases h : offset ≤ 0x3C
  · have hall : ∀ o ≤ 0x3C, (regAt o).isSome = true ↔ o % 4 = 0 ∧ o ≤ 0x3C := by decide
    exact hall offset h
  · have hnone : regAt offset = none := by
      unfold regAt
      split <;> simp at h ⊢
    simp [hnone, h]

theorem regOperand_isSome_iff (width offset : Nat) :
    (regOperand width offset).isSome = true ↔ width = 4 ∧ offset % 4 = 0 ∧ offset ≤ 0x3C := by
  unfold regOperand
  split_ifs with h
  · simp [h, regAt_isSome_iff]
  · simp [h]

/-- What is admitted is decided by the parameters and the phase. -/
theorem admitted_congr {s t : State} (hi : t.inSize = s.inSize) (ho : t.outSize = s.outSize) (hp : t.phase = s.phase) (op : HostOp) :
    HostOp.admitted t op = HostOp.admitted s op := by
  unfold HostOp.admitted State.busy
  rw [hi, ho, hp]

theorem dutiful_congr {s t : State} (hi : t.inSize = s.inSize) (ho : t.outSize = s.outSize) (hp : t.phase = s.phase) (op : HostOp) :
    HostOp.dutiful t op = HostOp.dutiful s op := by
  cases op with
  | rst level => rfl
  | poll => rfl
  | _ => exact admitted_congr hi ho hp _

/-- A register write is always answered. -/
theorem writeReg_answers (r : Reg) (v : Word) (s : State) : ∃ t, writeReg r v s = .next t := by
  cases r with
  | cmd =>
    cases hb : s.busy with
    | true => exact ⟨_, writeCmd_busy v hb⟩
    | false =>
      by_cases hv : v = 0
      · exact ⟨s, hv ▸ writeCmd_nop s⟩
      · exact ⟨_, writeCmd_accepts hb hv⟩
  | _ => exact ⟨_, rfl⟩

/-- An admitted transaction is answered. -/
theorem hostOp_of_admitted {op : HostOp} {s : State} (h : HostOp.admitted s op = true) : ∃ t, hostOp op s = .next t := by
  cases op with
  | poll => exact ⟨_, rfl⟩
  | rst level => exact ⟨_, rfl⟩
  | read space width offset =>
    cases space with
    | reg =>
      obtain ⟨r, hr⟩ := Option.isSome_iff_exists.1 h
      exact ⟨_, by rw [hostOp, hostRead, hr]⟩
    | inBuf => exact ⟨_, if_pos h⟩
    | outBuf => exact ⟨_, if_pos h⟩
  | write space width offset data =>
    cases space with
    | reg =>
      obtain ⟨r, hr⟩ := Option.isSome_iff_exists.1 h
      simp only [hostOp, hostWrite, hr]
      split_ifs
      · exact ⟨_, rfl⟩
      · exact writeReg_answers r data s
    | _ =>
      simp only [HostOp.admitted, Bool.and_eq_true, Bool.not_eq_true'] at h
      obtain ⟨hadm, hb⟩ := h
      simp only [hostOp, hostWrite, hadm, hb, if_true, Bool.false_eq_true, if_false]
      split_ifs <;> exact ⟨_, rfl⟩

/-- A transaction that is not admitted is refused. -/
theorem hostOp_of_not_admitted {op : HostOp} {s : State} (h : HostOp.admitted s op = false) : ∃ r, hostOp op s = .refused r := by
  cases op with
  | poll => cases h
  | rst level => cases h
  | read space width offset =>
    cases space with
    | reg =>
      have hr : regOperand width offset = none := by simpa [HostOp.admitted] using h
      exact ⟨_, by rw [hostOp, hostRead, hr]⟩
    | _ => exact ⟨_, if_neg (Bool.not_eq_true _ ▸ h)⟩
  | write space width offset data =>
    cases space with
    | reg =>
      have hr : regOperand width offset = none := by simpa [HostOp.admitted] using h
      exact ⟨_, by rw [hostOp, hostWrite, hr]⟩
    | _ =>
      simp only [HostOp.admitted, Bool.and_eq_false_iff, Bool.not_eq_false'] at h
      rcases h with hadm | hb
      · exact ⟨_, if_neg (by simp [hadm])⟩
      · simp only [hostOp, hostWrite, hb, if_true]
        split_ifs <;> exact ⟨_, rfl⟩

theorem hostOp_refused_iff {op : HostOp} {s : State} : (∃ r, hostOp op s = .refused r) ↔ HostOp.admitted s op = false := by
  refine ⟨fun ⟨r, hr⟩ => ?_, hostOp_of_not_admitted⟩
  by_contra h
  obtain ⟨t, ht⟩ := hostOp_of_admitted (Bool.eq_true_of_not_eq_false h)
  cases ht.symm.trans hr

theorem hostTurn_refused_iff {s : State} :
    (∃ r, hostTurn s = .refused r) ↔ ∃ op rest, s.host = op :: rest ∧ HostOp.admitted s op = false := by
  cases hh : s.host with
  | nil => simp [hostTurn, hh]
  | cons op rest =>
    have hturn : hostTurn s = hostOp op { s with host := rest } := by simp [hostTurn, hh]
    have hadm : HostOp.admitted { s with host := rest } op = HostOp.admitted s op := admitted_congr rfl rfl rfl op
    rw [hturn, hostOp_refused_iff, hadm]
    simp

theorem phase_busy_of_ne_idle {s : State} (h : s.phase ≠ .idle) : s.phase = .busy := by
  cases hp : s.phase with
  | idle => exact absurd hp h
  | busy => rfl

/-- The host's turn in a step; `k` is the latency that is left. -/
theorem step_of_hostTurn {s : State} (h : s.phase = .idle ∨ s.latency ≠ 0) : ∃ k, step s = hostTurn { s with latency := k } := by
  by_cases hp : s.phase = .idle
  · have hturn : step s = hostTurn s := by simp [step, blockStep, hp]
    exact ⟨s.latency, hturn⟩
  · have hturn : step s = hostTurn { s with latency := s.latency - 1 } := by
      rw [step, blockStep, phase_busy_of_ne_idle hp]
      exact if_neg (h.resolve_left hp)
    exact ⟨_, hturn⟩

/-- The engine's turn is always answered (R147). -/
theorem engineTurn_answers (s : State) : ∃ t, engineTurn s = .next t := by
  rcases engineTurn_cases s with ⟨_, h⟩ | ⟨_, h⟩ | ⟨_, h⟩ | ⟨_, _, h⟩ <;> exact ⟨_, h⟩

/-- A step is refused exactly when the host's turn in it is. -/
theorem step_refused_iff {s : State} :
    (∃ r, step s = .refused r) ↔
      (s.phase = .idle ∨ s.latency ≠ 0) ∧ ∃ op rest, s.host = op :: rest ∧ HostOp.admitted s op = false := by
  by_cases h : s.phase = .idle ∨ s.latency ≠ 0
  · obtain ⟨k, hk⟩ := step_of_hostTurn h
    rw [hk, hostTurn_refused_iff, and_iff_right h]
    simp only [admitted_congr (s := s) (t := { s with latency := k }) rfl rfl rfl]
  · obtain ⟨hp, hl⟩ := not_or.1 h
    obtain ⟨t, ht⟩ := engineTurn_answers s
    have hstep : step s = .next t := (step_engine (phase_busy_of_ne_idle hp) (not_not.1 hl)).trans ht
    simp [hstep, h]

/-- Settles O12: the refused steps (`step_refused_iff`) and the form of the accesses admitted; a buffer write while BUSY fails by the phase. -/
theorem onlyRefusedAccessesStopAStep : Obligations.OnlyRefusedAccessesStopAStep := by
  refine ⟨fun _ => step_refused_iff, regOperand_isSome_iff, fun _ _ _ => byteAdmitted_iff, fun s offset v hp => ?_⟩
  simp [HostOp.admitted, hp]

/-! ### A host that keeps its duties during a command (R71) -/

/-- `t` is `s` but for what a host may change during a command without resetting the block: `CTRL.IE` (R25) and the model's own fields. -/
def DuringCommand (s t : State) : Prop :=
  ∃ (ie : Bool) (host : List HostOp) (rdata : Word) (latency draws : Nat),
    t = { s with ctrlIE := ie, host := host, rdata := rdata, latency := latency, draws := draws }

theorem DuringCommand.refl (s : State) : DuringCommand s s := ⟨_, _, _, _, _, rfl⟩

theorem DuringCommand.trans {s t u : State} (h : DuringCommand s t) (h' : DuringCommand t u) : DuringCommand s u := by
  obtain ⟨_, _, _, _, _, rfl⟩ := h
  obtain ⟨_, _, _, _, _, rfl⟩ := h'
  exact ⟨_, _, _, _, _, rfl⟩

theorem DuringCommand.phase {s t : State} (h : DuringCommand s t) : t.phase = s.phase := by
  obtain ⟨_, _, _, _, _, rfl⟩ := h
  rfl

theorem DuringCommand.rst {s t : State} (h : DuringCommand s t) : t.rst = s.rst := by
  obtain ⟨_, _, _, _, _, rfl⟩ := h
  rfl

theorem DuringCommand.command {s t : State} (h : DuringCommand s t) : t.command = s.command := by
  obtain ⟨_, _, _, _, _, rfl⟩ := h
  rfl

/-- What is dutiful stays so. -/
theorem DuringCommand.dutiful {s t : State} (h : DuringCommand s t) (op : HostOp) : HostOp.dutiful t op = HostOp.dutiful s op := by
  obtain ⟨_, _, _, _, _, rfl⟩ := h
  exact dutiful_congr rfl rfl rfl op

/-- Where every byte read holds a defined value, the output of a command stays the same. -/
theorem DuringCommand.commandOutput {s t : State} (h : DuringCommand s t) (d : Except DecodeError Instr)
    (hdef : s.inLen.toNat ≤ s.inSize.toNat → ∀ a, a < s.inLen.toNat → (Memory.read s.inBuf a).isSome = true) :
    commandOutput d t = commandOutput d s := by
  obtain ⟨_, _, _, _, _, rfl⟩ := h
  exact commandOutput_congr d rfl rfl rfl fun hrange => inSnapshot_congr fun a ha => ⟨hdef hrange a ha, rfl⟩

/-- While BUSY a register write reaches `CTRL` alone (R25, R146, R347). -/
theorem writeReg_of_busy {s : State} (hb : s.busy = true) (r : Reg) (v : Word) : ∃ ie, writeReg r v s = .next { s with ctrlIE := ie } := by
  cases r with
  | ctrl => exact ⟨_, rfl⟩
  | cmd => exact ⟨s.ctrlIE, writeCmd_busy v hb⟩
  | status => exact ⟨s.ctrlIE, by simp only [writeReg, hb, Bool.not_true, Bool.false_and, Bool.false_eq_true, if_false]⟩
  | inLen => exact ⟨s.ctrlIE, by simp only [writeReg, hb, if_true]⟩
  | _ => exact ⟨s.ctrlIE, rfl⟩

/-- A dutiful transaction during a command is answered, leaves the latency to the step, and only a `POLL` puts itself back. -/
theorem hostOp_of_dutiful {op : HostOp} {s : State} (hb : s.phase = .busy) (hr : s.rst = false) (hd : HostOp.dutiful s op = true) :
    ∃ t, hostOp op s = .next t ∧ DuringCommand s t ∧ t.latency = s.latency ∧ t.host ⊆ op :: s.host := by
  cases op with
  | read space width offset =>
    obtain ⟨t, ht⟩ := hostOp_of_admitted hd
    have hs := hostRead_next ht
    exact ⟨t, ht, ⟨_, _, _, _, _, hs⟩, by rw [hs], by rw [hs]; exact List.subset_cons_self _ _⟩
  | poll =>
    refine ⟨hostPoll s, rfl, ?_⟩
    unfold hostPoll
    split_ifs
    · exact ⟨⟨_, _, _, _, _, rfl⟩, rfl, List.Subset.refl _⟩
    · exact ⟨⟨_, _, _, _, _, rfl⟩, rfl, List.subset_cons_self _ _⟩
  | rst level =>
    have hs : s.setRst level = s := if_neg (by simpa [hr, HostOp.dutiful] using hd)
    exact ⟨s, congrArg _ hs, .refl s, rfl, List.subset_cons_self _ _⟩
  | write space width offset data =>
    cases space with
    | reg =>
      obtain ⟨r, hreg⟩ := Option.isSome_iff_exists.1 hd
      obtain ⟨ie, hw⟩ := writeReg_of_busy (by simp [hb]) r data (s := s)
      have ht : hostOp (.write .reg width offset data) s = .next { s with ctrlIE := ie } := by
        simp only [hostOp, hostWrite, hreg, hr, Bool.false_eq_true, if_false, hw]
      exact ⟨_, ht, ⟨_, _, _, _, _, rfl⟩, rfl, List.subset_cons_self _ _⟩
    | _ => simp [HostOp.dutiful, HostOp.admitted, hb] at hd

/-- The host's turn in a step, during a command, where the transactions pending are dutiful. -/
theorem step_of_dutiful {s : State} {k : Nat} (hb : s.phase = .busy) (hr : s.rst = false) (hl : s.latency = k + 1)
    (hd : ∀ op ∈ s.host, HostOp.dutiful s op = true) :
    ∃ t, step s = .next t ∧ DuringCommand s t ∧ t.latency = k ∧ t.host ⊆ s.host := by
  cases hh : s.host with
  | nil => exact ⟨_, step_busy_none hb hl hh, ⟨_, _, _, _, _, rfl⟩, rfl, by simp [hh]⟩
  | cons op rest =>
    have hop : HostOp.dutiful { s with host := rest, latency := k } op = true :=
      (dutiful_congr rfl rfl rfl op).trans (hd op (by simp [hh]))
    obtain ⟨t, ht, hs, hlat, hsub⟩ := hostOp_of_dutiful (s := { s with host := rest, latency := k }) hb hr hop
    exact ⟨t, (step_busy hb hl hh).trans ht, .trans ⟨_, _, _, _, _, rfl⟩ hs, hlat, hsub⟩

theorem run_succ_of_next (M : Host.Core) {s t : M.State} (h : M.step s = .next t) (k : Nat) : M.run (k + 1) s = M.run k t := by
  rw [Host.Core.run, h]

theorem run_one (M : Host.Core) (s : M.State) : M.run 1 s = M.step s := by
  rw [Host.Core.run]
  cases M.step s <;> rfl

/-- With dutiful transactions pending, a running command takes its latency in host turns, and then the engine completes it on a state that
no more than `DuringCommand` has changed. -/
theorem run_command (k : Nat) : ∀ {s : State}, s.phase = .busy → s.rst = false → s.latency = k →
    (∀ op ∈ s.host, HostOp.dutiful s op = true) →
    ∃ t, DuringCommand s t ∧ Sys2Proof.core.run (k + 1) s = engineTurn t := by
  induction k with
  | zero => exact fun {s} hb _ hl _ => ⟨s, .refl s, (run_one Sys2Proof.core s).trans (step_engine hb hl)⟩
  | succ k ih =>
    intro s hb hr hl hd
    obtain ⟨t, ht, hs, hlat, hsub⟩ := step_of_dutiful hb hr hl hd
    obtain ⟨u, hu, hrun⟩ := ih (hs.phase.trans hb) (hs.rst.trans hr) hlat fun op hop => (hs.dutiful op).trans (hd op (hsub hop))
    exact ⟨u, hs.trans hu, (run_succ_of_next Sys2Proof.core ht _).trans hrun⟩

/-- Settles O11: the engine completes on a state with the same command, parameters, `IN_LEN`, `IN` and `OUT`, so with the same output
(`commandOutput_congr`). -/
theorem commandIsAtomicForADutifulHost : Obligations.CommandIsAtomicForADutifulHost := by
  intro s hb hr hc hd hdef
  obtain ⟨t, hs, hrun⟩ := run_command s.latency hb hr rfl hd
  obtain ⟨g, n, hu⟩ := engineTurn_completeWith hc
  obtain ⟨g', n', ht⟩ := engineTurn_completeWith (s := t) (hs.command.symm ▸ hc)
  rw [hs.command, hs.commandOutput _ hdef] at ht
  refine ⟨_, _, hrun.trans ht, hu, ?_⟩
  obtain ⟨_, _, _, _, _, rfl⟩ := hs
  cases commandOutput (decodeWord s.command) s <;> exact ⟨rfl, rfl, rfl, rfl, rfl, rfl, rfl, fun _ => rfl⟩

end Sys2Proof.Machine
end

section
/-! PROOFS. Encodings (`30_encoding.md`): the meaningful bits of a container (R106), the command words (R100 to R102), and the host's
`POLL` (R112). -/

namespace Sys2Proof.Machine

/-! ### The meaningful bits (R106) -/

theorem bits8_getElem? {j : Nat} (h : j < 8) (v : Byte) : (bits8 v)[j]? = some (v.getLsbD (7 - j)) := by
  interval_cases j <;> rfl

theorem flatMap_bits8_length (bs : List Byte) : (bs.flatMap bits8).length = 8 * bs.length := by
  induction bs with
  | nil => rfl
  | cons b bs ih =>
    rw [List.flatMap_cons, List.length_append, bits8_length, ih, List.length_cons]
    omega

/-- Bit `j` of a string of bytes is in byte `j / 8`, counted from bit 7 down. -/
theorem flatMap_bits8_getElem? (bs : List Byte) : ∀ j, j < 8 * bs.length →
    (bs.flatMap bits8)[j]? = some ((bs.getD (j / 8) 0).getLsbD (7 - j % 8)) := by
  induction bs with
  | nil => exact fun _ h => absurd h (Nat.not_lt_zero _)
  | cons b bs ih =>
    intro j hj
    rw [List.flatMap_cons]
    obtain hlt | hge := Nat.lt_or_ge j 8
    · rw [List.getElem?_append_left hlt, bits8_getElem? hlt, Nat.div_eq_of_lt hlt, Nat.mod_eq_of_lt hlt, List.getD_cons_zero]
    · obtain ⟨i, rfl⟩ := Nat.exists_eq_add_of_le' hge
      have hi : i < 8 * bs.length := by
        rw [List.length_cons] at hj
        omega
      rw [List.getElem?_append_right (l₁ := bits8 b) hge, bits8_length, Nat.add_sub_cancel, ih i hi,
        Nat.add_div_right i (by decide), Nat.add_mod_right, List.getD_cons_succ]

/-- Settles O35: the bits below 8P are the payload's, and those behind them are the first R of the last byte's eight. -/
theorem meaningfulBitsArePayloadThenResidual : Obligations.MeaningfulBitsArePayloadThenResidual := by
  intro k hk
  have hlen := flatMap_bits8_length k.payload
  refine ⟨?_, fun j hj => ?_, fun j hj => ?_⟩
  · rw [meaningfulBits, List.length_append, hlen, List.length_take, bits8_length, Nat.min_eq_left hk]
  · rw [meaningfulBits, List.getElem?_append_left (hlen ▸ hj), flatMap_bits8_getElem? _ j hj]
  · rw [meaningfulBits, List.getElem?_append_right (hlen ▸ Nat.le_add_right ..), hlen, Nat.add_sub_cancel_left,
      List.getElem?_take_of_lt hj, bits8_getElem? (hj.trans_le hk)]

/-! ### The command words (R100 to R102) -/

/-- A word is its two fields, `MBZ` above `OP`. -/
theorem commandWord_toNat (w : Word) : w.toNat = (commandMbz w).toNat * 2 ^ 8 + (commandOp w).toNat := by
  simp only [commandMbz, commandOp, BitVec.extractLsb'_toNat, Nat.shiftRight_eq_div_pow]
  omega

theorem wellFormedWord_iff_fields (w : Word) : wellFormedWord w = true ↔ commandMbz w = 0 ∧ (commandOp w).toNat < 3 := by
  rw [wellFormedWord, Bool.and_eq_true, beq_iff_eq, decide_eq_true_iff]

/-- The well-formed words are the words of the three commands. -/
theorem wellFormedWord_iff (w : Word) : wellFormedWord w = true ↔ ∃ i, w = encode i := by
  constructor
  · intro h
    obtain ⟨hmbz, hop⟩ := (wellFormedWord_iff_fields w).1 h
    have hw : w.toNat = (commandOp w).toNat := by simpa [hmbz] using commandWord_toNat w
    obtain h0 | h1 | h2 : w.toNat = 0 ∨ w.toNat = 1 ∨ w.toNat = 2 := by omega
    · exact ⟨.nop, BitVec.eq_of_toNat_eq h0⟩
    · exact ⟨.encode, BitVec.eq_of_toNat_eq h1⟩
    · exact ⟨.decode, BitVec.eq_of_toNat_eq h2⟩
  · rintro ⟨i, rfl⟩
    cases i <;> rfl

/-- An ill-formed word is rejected by the field at fault, `MBZ` before `OP` (R102). -/
theorem decodeWord_of_illFormed {w : Word} (h : ¬ wellFormedWord w = true) :
    decodeWord w = if commandMbz w = 0 then .error .illegalOp else .error .mustBeZero := by
  have hne : ∀ i, w ≠ encode i := fun i hi => h ((wellFormedWord_iff w).2 ⟨i, hi⟩)
  rw [decodeWord_eq]
  exact (if_neg (hne .nop)).trans ((if_neg (hne .encode)).trans (if_neg (hne .decode)))

theorem decodeWord_ok_iff (w : Word) (i : Instr) : decodeWord w = .ok i ↔ w = encode i := by
  constructor
  · intro h
    by_cases hw : wellFormedWord w = true
    · obtain ⟨j, rfl⟩ := (wellFormedWord_iff w).1 hw
      rw [decodeWord_encode] at h
      cases h
      rfl
    · rw [decodeWord_of_illFormed hw] at h
      split at h <;> cases h
  · rintro rfl
    exact decodeWord_encode i

/-- Settles O1: a word decodes to a command exactly when it is the command's word. -/
theorem commandWordsDecodeAsListed : Obligations.CommandWordsDecodeAsListed :=
  ⟨decodeWord_encode .nop, decodeWord_encode .encode, decodeWord_encode .decode, fun w i => (decodeWord_ok_iff w i).1⟩

/-- Settles O2: in the first two clauses the word is ill-formed, and in the third it is well formed, so the word of a command. -/
theorem otherWordsAreIllegal : Obligations.OtherWordsAreIllegal := by
  intro w
  have hwf := wellFormedWord_iff_fields w
  refine ⟨fun hmbz => ?_, fun hmbz hop => ?_, fun hmbz hop => ?_⟩
  · rw [decodeWord_of_illFormed fun h => hmbz (hwf.1 h).1, if_neg hmbz]
  · rw [decodeWord_of_illFormed fun h => hop.not_gt (hwf.1 h).2, if_pos hmbz]
  · obtain ⟨i, hi⟩ := (wellFormedWord_iff w).1 (hwf.2 ⟨hmbz, hop⟩)
    exact ⟨i, (decodeWord_ok_iff w i).2 hi⟩

/-- Settles O3: every command is well formed, so the hypothesis is not needed. -/
theorem decodeOfEncodedCommand : Obligations.DecodeOfEncodedCommand :=
  fun i _ => ⟨decodeWord_encode i, (wellFormedWord_iff _).2 ⟨i, rfl⟩⟩

/-! ### `POLL` (R112) -/

/-- Settles O50: what `POLL` tests is `STATUS` bit 0, which is BUSY (`statusWordFields`). -/
theorem pollRepeatsWhileBusy : Obligations.PollRepeatsWhileBusy := by
  intro s
  obtain ⟨hbit, _⟩ := statusWordFields s
  exact ⟨fun hp => congrArg Host.Outcome.next (if_pos (by rw [hbit, hp]; rfl)),
    fun hp => congrArg Host.Outcome.next (if_neg (by rw [hbit, hp]; decide))⟩

end Sys2Proof.Machine
end

section
/-! PROOFS. The commands (`40_commands.md`): `DECODE` undoes `ENCODE` (R149), what each command leaves (R142 to R145, R148), and how a step comes
to run one (R140, R141, R146, R147). -/

namespace Sys2Proof.Machine

/-! ### Bits packed into bytes (R222 to R224) -/

theorem bits8_byteOfBits_of_length {b : Bits} (h : b.length = 8) : bits8 (byteOfBits b) = b := by
  match b, h with
  | [x7, x6, x5, x4, x3, x2, x1, x0], _ => exact bits8_byteOfBits x7 x6 x5 x4 x3 x2 x1 x0

/-- A bit appended to 7 fills a byte, which is emitted. -/
theorem appendBit_of_length_eq {p : Packer} (b : Bool) (h : p.buf.length = 7) :
    appendBit p b = ⟨p.out ++ [byteOfBits (p.buf ++ [b])], []⟩ := by
  have h8 : (p.buf ++ [b]).length = 8 := by simp [h]
  simp only [appendBit, h8, le_refl, if_true, List.take_of_length_le h8.le, List.drop_of_length_le h8.le]

/-- A bit appended to fewer is kept. -/
theorem appendBit_of_length_lt {p : Packer} (b : Bool) (h : p.buf.length < 7) : appendBit p b = ⟨p.out, p.buf ++ [b]⟩ :=
  if_neg (by simpa using h)

/-- A bit appended is in the byte emitted or in the buffer. -/
theorem appendBit_bits {p : Packer} (b : Bool) (h : p.buf.length < 8) :
    ∃ payload, (appendBit p b).out = p.out ++ payload ∧ payload.flatMap bits8 ++ (appendBit p b).buf = p.buf ++ [b] := by
  rcases Nat.lt_succ_iff_lt_or_eq.1 h with hroom | hfull
  · rw [appendBit_of_length_lt b hroom]
    exact ⟨[], by simp, by simp⟩
  · rw [appendBit_of_length_eq b hfull]
    exact ⟨[byteOfBits (p.buf ++ [b])], rfl, by simp [bits8_byteOfBits_of_length, hfull]⟩

/-- The bits appended are those of the bytes emitted, then those in the buffer, in order. -/
theorem foldl_appendBit_bits (bits : Bits) : ∀ {p : Packer}, p.buf.length < 8 →
    ∃ payload, (bits.foldl appendBit p).out = p.out ++ payload ∧
      payload.flatMap bits8 ++ (bits.foldl appendBit p).buf = p.buf ++ bits := by
  induction bits with
  | nil => exact fun _ => ⟨[], by simp, by simp⟩
  | cons b bits ih =>
    intro p h
    obtain ⟨first, hout, hbits⟩ := appendBit_bits b h
    obtain ⟨rest, hout', hbits'⟩ := ih (appendBit_buf_lt b h)
    refine ⟨first ++ rest, ?_, ?_⟩
    · rw [List.foldl_cons, hout', hout, List.append_assoc]
    · rw [List.foldl_cons, List.flatMap_append, List.append_assoc, hbits', ← List.append_assoc, hbits]
      simp

/-- A container is its header, the coded bits packed into bytes, and the at most 7 bits left over in the trailer (R225). -/
theorem packContainer_parts (es : List Entry) (cs : Codes) (data : List Byte) :
    ∃ payload buf, packContainer es cs data = headerBytes es ++ payload ++ trailerBytes buf ∧ buf.length < 8 ∧
      payload.flatMap bits8 ++ buf = symbolBits cs data := by
  have hempty : (⟨headerBytes es, []⟩ : Packer).buf.length < 8 := Nat.zero_lt_succ 7
  obtain ⟨payload, hout, hbits⟩ := foldl_appendBit_bits (symbolBits cs data) hempty
  refine ⟨payload, (packSymbols es cs data).buf, ?_, ?_, ?_⟩
  · rw [packContainer, packSymbols, appendSymbols_eq, hout]
  · rw [packSymbols, appendSymbols_eq]
    exact foldl_appendBit_buf_lt _ _ hempty
  · rw [packSymbols, appendSymbols_eq]
    exact hbits

/-- The first bits of the trailer's last byte are the bits left over (R224). -/
theorem take_bits8_trailer {buf : Bits} (h : buf.length < 8) :
    (bits8 (byteOfBits (buf ++ List.replicate (8 - buf.length) false))).take buf.length = buf := by
  rw [bits8_byteOfBits_of_length (by simp; omega), List.take_left]

/-! ### A container parses to its parts (R250, R251) -/

/-- The four bytes of a word assemble to it (R14). -/
theorem be32_of_be32enc (v : Word) : be32 (v.extractLsb' 24 8) (v.extractLsb' 16 8) (v.extractLsb' 8 8) (v.extractLsb' 0 8) = v := by
  refine BitVec.eq_of_toNat_eq ?_
  simp only [be32_toNat, BitVec.extractLsb'_toNat, Nat.shiftRight_eq_div_pow]
  omega

/-- The entry loop reads back the entries of a header, behind those it has read. -/
theorem parseEntries_header (es : List Entry) : ∀ (acc : List Entry) (tail : List Byte), ((acc ++ es).map Entry.sym).Nodup →
    (∀ e ∈ es, e.freq ≠ 0) →
    parseEntries es.length (es.flatMap (fun e => e.sym :: be32enc e.freq) ++ tail) acc = .ok (acc ++ es, tail) := by
  induction es with
  | nil => intro acc tail _ _; simp [parseEntries]
  | cons e es ih =>
    intro acc tail hnodup hfreq
    have hnew : acc.any (fun d => d.sym == e.sym) = false := by
      rw [List.map_append, List.nodup_append] at hnodup
      obtain ⟨_, _, hdisj⟩ := hnodup
      rw [List.any_eq_false]
      intro d hd
      simpa using hdisj _ (List.mem_map_of_mem hd) e.sym (by simp)
    have hrest := ih (acc ++ [e]) tail (by simpa using hnodup) fun d hd => hfreq d (List.mem_cons_of_mem _ hd)
    simp only [List.flatMap_cons, be32enc, List.cons_append, List.nil_append, List.length_cons, parseEntries, be32_of_be32enc] at hrest ⊢
    rw [if_neg (hfreq e List.mem_cons_self), hnew, if_neg Bool.false_ne_true, hrest, List.append_assoc]
    rfl

/-- A header that meets the builder's contract, any payload, and a trailer with R at most 8 parse to just these. -/
theorem parseContainer_parts {es : List Entry} (hes : BuildContract es) (payload : List Byte) {r : Byte} (hr : r.toNat ≤ 8) (f : Byte) :
    parseContainer (headerBytes es ++ payload ++ [r, f]) = .ok ⟨es, payload, r.toNat, f⟩ := by
  obtain ⟨hpos, hle, hnodup, hfreq⟩ := hes
  have hl : (BitVec.ofNat 32 es.length).toNat = es.length := Nat.mod_eq_of_lt (by omega)
  have hlen : (headerBytes es ++ payload ++ [r, f]).length = 4 + 5 * es.length + payload.length + 2 := by simp; omega
  have hentries := parseEntries_header es [] (payload ++ [r, f]) hnodup fun e he h0 => by simpa [h0] using hfreq e he
  have htrailer : parseTrailer es (payload ++ [r, f]) = .ok ⟨es, payload, r.toNat, f⟩ := by
    simp [parseTrailer, List.getD, Nat.not_lt.2 hr]
  unfold parseContainer
  rw [hlen]
  simp only [headerBytes, be32enc, List.cons_append, List.nil_append, List.append_assoc, be32_of_be32enc, hl] at hentries ⊢
  rw [if_neg (by omega), if_neg (by omega), if_neg (by omega), hentries]
  exact (if_neg (by omega)).trans htrailer

/-- What `PackContainer` wrote parses back to its entries and its bits (R262). -/
theorem parseContainer_packContainer {es : List Entry} (hes : BuildContract es) (cs : Codes) (data : List Byte) :
    ∃ k, parseContainer (packContainer es cs data) = .ok k ∧ k.entries = es ∧ meaningfulBits k = symbolBits cs data := by
  obtain ⟨payload, buf, hparts, hbuf, hbits⟩ := packContainer_parts es cs data
  have hr : (BitVec.ofNat 8 buf.length).toNat = buf.length := Nat.mod_eq_of_lt (by omega)
  refine ⟨_, hparts ▸ parseContainer_parts hes payload (hr.trans_le hbuf.le) _, rfl, ?_⟩
  simp only [meaningfulBits, hr, take_bits8_trailer hbuf, hbits]

/-! ### The entry list of the source bytes (R171, R172) -/

theorem mem_allSymbols (s : Byte) : s ∈ allSymbols := List.mem_toFinset.1 (toFinset_allSymbols ▸ Finset.mem_univ s)

theorem mem_entryList_iff {freq : Byte → Word} {e : Entry} : e ∈ entryList freq ↔ freq e.sym ≠ 0 ∧ e.freq = freq e.sym := by
  simp only [entryList, List.mem_filterMap]
  constructor
  · rintro ⟨s, _, h⟩
    split_ifs at h with h0
    cases h
    exact ⟨h0, rfl⟩
  · rintro ⟨h0, hf⟩
    exact ⟨e.sym, mem_allSymbols _, by rw [if_neg h0, ← hf]⟩

theorem map_sym_entryList (freq : Byte → Word) : (entryList freq).map Entry.sym = allSymbols.filter fun s => freq s ≠ 0 := by
  rw [entryList, List.map_filterMap, ← List.filterMap_eq_filter]
  refine congrArg (List.filterMap · allSymbols) (funext fun s => ?_)
  by_cases h : freq s = 0
  · rw [if_pos h, Option.guard, if_neg (by simpa using h)]
    rfl
  · rw [if_neg h, Option.guard, if_pos (by simpa using h)]
    rfl

section
variable {data : List Byte} (hlen : data.length < 2 ^ 32)
include hlen

/-- An entry holds the exact count of its symbol. -/
theorem encodeEntries_freq {e : Entry} (he : e ∈ encodeEntries data) : e.freq.toNat = data.count e.sym := by
  rw [(mem_entryList_iff.1 he).2, frequencyOf_toNat hlen]

theorem mem_map_sym_encodeEntries (s : Byte) : s ∈ (encodeEntries data).map Entry.sym ↔ s ∈ data := by
  have hzero : frequencyOf data s ≠ 0 ↔ data.count s ≠ 0 := by
    rw [ne_eq, ← BitVec.toNat_inj, frequencyOf_toNat hlen]; rfl
  rw [encodeEntries, map_sym_entryList, List.mem_filter, and_iff_right (mem_allSymbols s), decide_eq_true_iff, hzero, ne_eq,
    List.count_eq_zero, not_not]

theorem totalCount_encodeEntries : totalCount (encodeEntries data) = data.length := by
  calc totalCount (encodeEntries data)
      = ((encodeEntries data).map fun e => e.freq.toNat * 1).sum := by simp only [totalCount, Nat.mul_one]
    _ = ∑ s, (frequencyOf data s).toNat * 1 := sum_entryList _ fun _ => 1
    _ = ∑ s, data.count s * 1 := by simp only [frequencyOf_toNat hlen]
    _ = (data.map fun _ => 1).sum := (sum_map_eq_sum_count data fun _ => 1).symm
    _ = data.length := by simp

/-- Source bytes give an entry list that meets the contract of the tree builder (R172, R180). -/
theorem buildContract_encodeEntries (hne : data ≠ []) : BuildContract (encodeEntries data) := by
  have hsym := mem_map_sym_encodeEntries hlen
  refine ⟨?_, entryList_length_le _, ?_, fun e he => ?_⟩
  · obtain ⟨s, hs⟩ := List.exists_mem_of_ne_nil data hne
    have := List.length_pos_of_mem ((hsym s).2 hs)
    rwa [List.length_map] at this
  · rw [encodeEntries, map_sym_entryList]
    exact nodup_allSymbols.filter _
  · rw [encodeEntries_freq hlen he]
    exact List.count_pos_iff.2 ((hsym _).1 (List.mem_map_of_mem he))

end

/-! ### Codes are paths to leaves (R200) -/

/-- `c` leads from `t` down to a leaf with the symbol `s`. -/
inductive Tree.LeafAt : Tree → Bits → Byte → Prop
  | leaf (s : Byte) (w q : Nat) : LeafAt (.leaf s w q) [] s
  | node {w : Nat} {l r : Tree} {q : Nat} {b : Bool} {c : Bits} {s : Byte} :
      LeafAt ((Tree.node w l r q).child b) c s → LeafAt (.node w l r q) (b :: c) s

theorem leafAt_of_mem_paths (t : Tree) : ∀ {p : Bits} {x : Byte × Bits}, x ∈ t.paths p → ∃ c, x.2 = p ++ c ∧ t.LeafAt c x.1 := by
  induction t with
  | leaf s w q =>
    intro p x hx
    obtain rfl := List.mem_singleton.1 hx
    exact ⟨[], by simp, .leaf s w q⟩
  | node w l r q ihl ihr =>
    intro p x hx
    rcases List.mem_append.1 hx with hx | hx
    · obtain ⟨c, hc, hleaf⟩ := ihl hx
      exact ⟨false :: c, by simpa using hc, .node hleaf⟩
    · obtain ⟨c, hc, hleaf⟩ := ihr hx
      exact ⟨true :: c, by simpa using hc, .node hleaf⟩

/-- The code of a symbol that has one is in the table. -/
theorem codeOf_mem {s : Byte} {cs : Codes} (h : s ∈ cs.map Prod.fst) : (s, codeOf cs s) ∈ cs := by
  induction cs with
  | nil => cases h
  | cons x cs ih =>
    obtain ⟨t, c⟩ := x
    simp only [codeOf]
    split_ifs with hts
    · exact hts ▸ List.mem_cons_self
    · have hs : s = t ∨ s ∈ cs.map Prod.fst := by simpa using h
      exact List.mem_cons_of_mem _ (ih (hs.resolve_left (Ne.symm hts)))

/-- In a tree of two leaves or more, a symbol's code leads from the root to a leaf that has it. -/
theorem leafAt_codeOf {w : Nat} {l r : Tree} {q : Nat} {s : Byte} (hs : s ∈ (Tree.node w l r q).symbols) :
    (Tree.node w l r q).LeafAt (codeOf (codeTable (.node w l r q)) s) s := by
  rw [← codeTable_fst] at hs
  obtain ⟨c, hc, hleaf⟩ := leafAt_of_mem_paths (.node w l r q) (p := []) (codeOf_mem hs)
  have hcode : codeOf (codeTable (.node w l r q)) s = c := hc
  exact hcode ▸ hleaf

theorem flatMap_symbols_seeds (es : List Entry) : ∀ i, (seeds es i).flatMap Tree.symbols = es.map Entry.sym := by
  induction es with
  | nil => exact fun _ => rfl
  | cons e es ih => exact fun i => congrArg (e.sym :: ·) (ih (i + 1))

theorem flatMap_symbols_merge (a b : Tree) (seq : Nat) (rest : List Tree) :
    ((mergeNodes a b seq :: rest).flatMap Tree.symbols).Perm ((a :: b :: rest).flatMap Tree.symbols) := by
  simp only [List.flatMap_cons, mergeNodes, Tree.symbols, ← List.append_assoc]
  exact List.perm_append_comm.append_right _

/-- The leaves of the built tree have the symbols of the entries (R186). -/
theorem buildTree_symbols_perm {es : List Entry} (hne : es ≠ []) : (buildTree es).symbols.Perm (es.map Entry.sym) := by
  have hkeeps := buildTree_keeps (fun ts => (ts.flatMap Tree.symbols : Multiset Byte))
    (fun _ _ h => Multiset.coe_eq_coe.2 (h.flatMap_right _))
    (fun a b seq rest => Multiset.coe_eq_coe.2 (flatMap_symbols_merge a b seq rest)) hne
  simpa [flatMap_symbols_seeds] using Multiset.coe_eq_coe.1 hkeeps

/-! ### The walk over codes (R255, R256) -/

/-- The walk after it has emitted `data` from `w` on and come back to the root. -/
def WalkState.emit (root : Tree) (w : WalkState) (data : List Byte) : WalkState :=
  ⟨root, data.foldl remDec w.rem, w.dcount + data.length, w.out ++ data⟩

theorem emit_cons (root : Tree) (w : WalkState) (s : Byte) (data : List Byte) :
    (w.emit root [s]).emit root data = w.emit root (s :: data) := by
  simp [WalkState.emit, Nat.add_assoc, Nat.add_comm]

theorem remOf_remDec (m : List (Byte × Nat)) (s t : Byte) : remOf (remDec m s) t = remOf m t - if s = t then 1 else 0 := by
  induction m with
  | nil => simp [remDec, remOf]
  | cons x m ih =>
    obtain ⟨u, k⟩ := x
    by_cases hus : u = s
    · subst hus
      by_cases hut : u = t <;> simp [remDec, remOf, hut]
    · by_cases hut : u = t
      · subst hut
        simp [remDec, remOf, hus, Ne.symm hus]
      · simp [remDec, remOf, hus, hut, ih]

/-- The counter of an entry's symbol starts at the entry's frequency. -/
theorem remOf_walkStart (root : Tree) {es : List Entry} (hnodup : (es.map Entry.sym).Nodup) {e : Entry} (he : e ∈ es) :
    remOf (walkStart root es).rem e.sym = e.freq.toNat := by
  induction es with
  | nil => cases he
  | cons d es ih =>
    rw [List.map_cons, List.nodup_cons] at hnodup
    obtain ⟨hfresh, hnodup⟩ := hnodup
    rcases List.mem_cons.1 he with rfl | he
    · simp [walkStart, remOf]
    · have hne : d.sym ≠ e.sym := fun h => hfresh (h ▸ List.mem_map_of_mem he)
      simpa [walkStart, remOf, hne] using ih hnodup he

/-- Below the root, the bits that lead to a leaf emit its symbol. -/
theorem walkBits_leafAt {v : Nat} {l r : Tree} {q total : Nat} {t : Tree} {c : Bits} {s : Byte} (hleaf : t.LeafAt c s) :
    ∀ (w : WalkState) (b : Bool), w.cursor.child b = t → w.dcount ≠ total → remOf w.rem s ≠ 0 →
      walkBits (.node v l r q) total (b :: c) w = .ok (w.emit (.node v l r q) [s]) := by
  induction hleaf with
  | leaf s _ _ =>
    intro w b hchild htotal hrem
    simp only [walkBits, walkBit, walkBitTree, if_neg htotal, hchild, if_neg hrem]
    rfl
  | node _ ih =>
    intro w b hchild htotal hrem
    rw [walkBits]
    simp only [walkBit, walkBitTree, if_neg htotal, hchild]
    exact ih { w with cursor := _ } _ rfl htotal hrem

/-- From the root, the code of a symbol emits it, for L = 1 as for L ≥ 2. -/
theorem walkBits_codeOf {root : Tree} {total : Nat} {w : WalkState} {s : Byte} (hs : s ∈ root.symbols) (hroot : w.cursor = root)
    (htotal : w.dcount ≠ total) (hrem : remOf w.rem s ≠ 0) :
    walkBits root total (codeOf (codeTable root) s) w = .ok (w.emit root [s]) := by
  cases root with
  | leaf t v q =>
    obtain rfl := List.mem_singleton.1 hs
    simp [codeTable, codeOf, walkBits, walkBit, walkBitSingle, htotal, WalkState.emit, hroot]
  | node v l r q =>
    have hleaf := leafAt_codeOf hs
    generalize codeOf (codeTable (.node v l r q)) s = c at hleaf ⊢
    cases hleaf with
    | node hleaf => exact walkBits_leafAt hleaf w _ (by rw [hroot]) htotal hrem

/-- From the root, a string of codes emits the symbols coded, where neither the total nor a counter is exceeded. -/
theorem walkBits_symbolBits {root : Tree} {total : Nat} (data : List Byte) : ∀ {w : WalkState}, (∀ s ∈ data, s ∈ root.symbols) →
    w.cursor = root → w.dcount + data.length ≤ total → (∀ s, data.count s ≤ remOf w.rem s) →
    walkBits root total (symbolBits (codeTable root) data) w = .ok (w.emit root data) := by
  induction data with
  | nil =>
    intro w _ hroot _ _
    simp [symbolBits, walkBits, WalkState.emit, ← hroot]
  | cons s data ih =>
    intro w hsym hroot htotal hrem
    rw [List.length_cons] at htotal
    have hpos : remOf w.rem s ≠ 0 := Nat.pos_iff_ne_zero.1 ((List.count_pos_iff.2 List.mem_cons_self).trans_le (hrem s))
    have hfirst := walkBits_codeOf (total := total) (hsym s List.mem_cons_self) hroot (by omega) hpos
    have hrest := ih (w := w.emit root [s]) (fun t ht => hsym t (List.mem_cons_of_mem _ ht)) rfl
      (by simp [WalkState.emit]; omega) fun t => by
        have := hrem t
        rw [List.count_cons] at this
        simp only [WalkState.emit, List.foldl_cons, List.foldl_nil, remOf_remDec]
        simp only [beq_iff_eq] at this
        omega
    rw [symbolBits, List.flatMap_cons, walkBits_append, hfirst]
    exact hrest.trans (congrArg _ (emit_cons root w s data))

/-- The walk of `DECODE` over the codes of `data`, where the header's frequencies admit it. -/
theorem walkBits_header {es : List Entry} {data : List Byte} (hes : BuildContract es) (hsym : ∀ s ∈ data, s ∈ es.map Entry.sym)
    (hcount : ∀ e ∈ es, data.count e.sym ≤ e.freq.toNat) (hlen : data.length ≤ totalCount es) :
    walkBits (buildTree es) (totalCount es) (symbolBits (codeTable (buildTree es)) data) (walkStart (buildTree es) es) =
      .ok ((walkStart (buildTree es) es).emit (buildTree es) data) := by
  obtain ⟨hpos, _, hnodup, _⟩ := hes
  have hperm := buildTree_symbols_perm (List.ne_nil_of_length_pos hpos)
  refine walkBits_symbolBits data (fun s hs => hperm.mem_iff.2 (hsym s hs)) rfl (by simpa [walkStart] using hlen) fun s => ?_
  by_cases hs : s ∈ data
  · obtain ⟨e, he, rfl⟩ := List.mem_map.1 (hsym s hs)
    exact (hcount e he).trans_eq (remOf_walkStart _ hnodup he).symm
  · simp [List.count_eq_zero_of_not_mem hs]

/-- With as many symbols coded as the header counts, the walk succeeds and has emitted them. -/
theorem walk_header {es : List Entry} {data : List Byte} (hes : BuildContract es) (hsym : ∀ s ∈ data, s ∈ es.map Entry.sym)
    (hcount : ∀ e ∈ es, data.count e.sym ≤ e.freq.toNat) (hlen : data.length = totalCount es) :
    ∃ w, walk (buildTree es) es (symbolBits (codeTable (buildTree es)) data) (totalCount es) = .ok w ∧ w.out = data := by
  refine ⟨(walkStart (buildTree es) es).emit (buildTree es) data, ?_, rfl⟩
  rw [walk, walkBits_header hes hsym hcount hlen.le]
  exact if_neg (by simp [WalkState.emit, walkStart, hlen])

/-! ### `DECODE` undoes `ENCODE` (R149) -/

theorem decodeContainer_eq_ok {outSize : Nat} {c : List Byte} {k : Container} {w : WalkState} (hparse : parseContainer c = .ok k)
    (hfit : totalCount k.entries ≤ outSize)
    (hwalk : walk (buildTree k.entries) k.entries (meaningfulBits k) (totalCount k.entries) = .ok w) :
    decodeContainer outSize c = .ok (k, w) := by
  rw [decodeContainer, hparse]
  exact (if_neg (Nat.not_lt.2 hfit)).trans (by rw [hwalk])

/-- The container `ENCODE` writes decodes to the source bytes, where they fit. -/
theorem decodeContainer_encodeContainer {data : List Byte} {outSize : Nat} (hne : data ≠ []) (hlen : data.length < 2 ^ 32)
    (hfit : data.length ≤ outSize) : ∃ k w, decodeContainer outSize (encodeContainer data) = .ok (k, w) ∧ w.out = data := by
  have hes := buildContract_encodeEntries hlen hne
  have htotal := totalCount_encodeEntries hlen
  obtain ⟨k, hparse, hentries, hbits⟩ := parseContainer_packContainer hes (encodeCodes data) data
  obtain ⟨w, hwalk, hout⟩ := walk_header hes (fun s => (mem_map_sym_encodeEntries hlen s).2)
    (fun e he => (encodeEntries_freq hlen he).ge) htotal.symm
  refine ⟨k, w, decodeContainer_eq_ok hparse ?_ ?_, hout⟩
  · rwa [hentries, htotal]
  · rw [hentries, hbits]
    exact hwalk

/-- What a command with the output `o` leaves of `s` in `t` for the host to see (R145, R69, R66). -/
structure Completed (s : State) (o : Output) (t : State) : Prop where
  phase : t.phase = .idle
  done : t.done = true
  err : t.err = false
  errCode : t.errCode = 0
  outLen : t.outLen.toNat = o.bytes.length
  syms : t.syms = o.syms
  total : t.total = o.total
  resid : t.resid = o.resid
  written : ∀ a, a < o.bytes.length → Memory.read t.outBuf a = o.bytes[a]?
  kept : ∀ a, o.bytes.length ≤ a → Memory.read t.outBuf a = Memory.read s.outBuf a
  inBuf : t.inBuf = s.inBuf
  inLen : t.inLen = s.inLen
  ctrlIE : t.ctrlIE = s.ctrlIE

/-- `OUT` after a command with an output of length `n`. -/
theorem Completed.outBuf {s t : State} {o : Output} (h : Completed s o t) {n : Nat} (hn : o.bytes.length = n) :
    (∀ a, a < n → Memory.read t.outBuf a = o.bytes[a]? ∧ o.bytes[a]? ≠ none) ∧
      ∀ a, n ≤ a → Memory.read t.outBuf a = Memory.read s.outBuf a := by
  subst hn
  exact ⟨fun a ha => ⟨h.written a ha, by simpa using ha⟩, h.kept⟩

theorem completed_completeWith {s : State} {o : Output} (hfit : o.bytes.length ≤ s.outSize.toNat) (g : Engine) (n : Nat) :
    Completed s o (s.completeWith g n (.ok o)) := by
  have hread : ∀ a, Memory.read (s.completeWith g n (.ok o)).outBuf a =
      if 0 ≤ a ∧ a < 0 + o.bytes.length then o.bytes[a]? else Memory.read s.outBuf a := read_writeBytes o.bytes s.outBuf 0
  exact ⟨rfl, rfl, rfl, rfl, completeWith_outLen hfit g n, rfl, rfl, rfl, fun a ha => (hread a).trans (if_pos (by omega)),
    fun a ha => (hread a).trans (if_neg (by omega)), rfl, rfl, rfl⟩

/-- A command that has an output completes with it. -/
theorem exec_completed {i : Instr} (hi : i ≠ .nop) {s : State} {o : Output} (ho : commandOutput (.ok i) s = .ok o) :
    ∃ t, exec i s = .next t ∧ Completed s o t := by
  obtain ⟨g, n, ht⟩ := exec_completeWith hi s
  rw [ho] at ht
  exact ⟨_, ht, completed_completeWith (commandOutput_fits ho) g n⟩

/-- A command that ends without error had an output and has completed with it. -/
theorem completed_of_no_error {i : Instr} (hi : i ≠ .nop) {s t : State} (ht : exec i s = .next t) (herr : t.err = false) :
    ∃ o, commandOutput (.ok i) s = .ok o ∧ Completed s o t := by
  obtain ⟨g, n, hexec⟩ := exec_completeWith hi s
  cases hexec.symm.trans ht
  cases ho : commandOutput (.ok i) s with
  | error e => rw [ho] at herr; cases herr
  | ok o => exact ⟨o, rfl, completed_completeWith (commandOutput_fits ho) g n⟩

/-- An `ENCODE` with an output has read at least one byte, and its output is their container. -/
theorem encodeOutput_ok {s : State} {o : Output} (h : encodeOutput s = .ok o) :
    s.inLen ≠ 0 ∧ o.bytes = encodeContainer (inSnapshot s s.inLen.toNat) := by
  simp only [encodeOutput] at h
  split_ifs at h with h0 h1 h2
  cases h
  exact ⟨h0, rfl⟩

theorem decodeOutput_eq_ok {s : State} {k : Container} {w : WalkState} (hrange : s.inLen.toNat ≤ s.inSize.toNat)
    (hok : decodeContainer s.outSize.toNat (inSnapshot s s.inLen.toNat) = .ok (k, w)) :
    decodeOutput s = .ok ⟨w.out, BitVec.ofNat 9 k.entries.length, BitVec.ofNat 40 (totalCount k.entries), BitVec.ofNat 4 k.resid⟩ := by
  rw [decodeOutput, if_neg (Nat.not_lt.2 hrange), hok]
  rfl

/-- A byte of the snapshot is the byte of `IN`, where that holds a defined value (R68). -/
theorem getElem?_inSnapshot {s : State} {n a : Nat} (ha : a < n) (hdef : (Memory.read s.inBuf a).isSome = true) :
    (inSnapshot s n)[a]? = Memory.read s.inBuf a := by
  obtain ⟨b, hb⟩ := Option.isSome_iff_exists.1 hdef
  simp [inSnapshot, ha, byteAt_of_read hb, hb]

/-- Settles O43: the container `ENCODE` wrote is the input of `DECODE`, and it decodes to the source bytes
(`decodeContainer_encodeContainer`). -/
theorem decodeOfEncodeRoundTrip : Obligations.DecodeOfEncodeRoundTrip := by
  intro s t u hdef ht herr hread hlen huin huout
  have hsource : (inSnapshot s s.inLen.toNat).length = s.inLen.toNat := inSnapshot_length s _
  obtain ⟨o, ho, hst⟩ := completed_of_no_error (i := .encode) nofun ht herr
  obtain ⟨h0, hbytes⟩ := encodeOutput_ok ho
  rw [← hlen] at huin
  have hinput : inSnapshot u u.inLen.toNat = encodeContainer (inSnapshot s s.inLen.toNat) := by
    rw [hlen, hst.outLen, ← hbytes]
    exact inSnapshot_of_holds fun a ha => (hread a (ha.trans_eq hst.outLen.symm)).trans (hst.written a ha)
  have hne : inSnapshot s s.inLen.toNat ≠ [] := fun h => h0 (BitVec.eq_of_toNat_eq (by simpa [h] using hsource.symm))
  obtain ⟨k, w, hok, hw⟩ := decodeContainer_encodeContainer hne (hsource.trans_lt s.inLen.isLt) (hsource.trans_le huout)
  obtain ⟨v, hv, huv⟩ := exec_completed (i := .decode) nofun (decodeOutput_eq_ok huin (hinput ▸ hok))
  refine ⟨v, hv, huv.done, huv.err, BitVec.eq_of_toNat_eq ?_, fun a ha => ?_⟩
  · rw [huv.outLen, hw, hsource]
  · rw [huv.written a (by rwa [hw, hsource]), hw, getElem?_inSnapshot ha (hdef a ha)]

/-! ### What a completed command leaves (R142, R143, R145, R148) -/

/-- Settles O14: under these conditions `ENCODE` has the container as its output, as long as the checked size (`encodeContainer_length`), and
the registers hold what it reports. -/
theorem encodeCompletes : Obligations.EncodeCompletes := by
  intro s data hdata h0 hrange hfit
  have hsource : data.length = s.inLen.toNat := by rw [hdata, inSnapshot_length]
  have hlen := encodeContainer_length (hsource.trans_lt s.inLen.isLt)
  have hentries : (encodeEntries data).length ≤ 256 := entryList_length_le _
  have ho : encodeOutput s = .ok ⟨encodeContainer data, BitVec.ofNat 9 (encodeEntries data).length, BitVec.ofNat 40 data.length,
      BitVec.ofNat 4 (encodeBits data % 8)⟩ := by
    simp only [encodeOutput, ← hdata, if_neg h0, if_neg (Nat.not_lt.2 hrange), if_neg (Nat.not_lt.2 hfit)]
  obtain ⟨t, ht, hst⟩ := exec_completed (i := .encode) nofun ho
  obtain ⟨hwritten, hkept⟩ := hst.outBuf hlen
  refine ⟨t, ht, hst.phase, hst.done, hst.err, hst.errCode, hst.outLen.trans hlen, ?_, ?_, ?_, hwritten, hkept,
    hst.inBuf, hst.inLen, hst.ctrlIE⟩
  · rw [hst.syms]
    exact Nat.mod_eq_of_lt (by omega)
  · rw [hst.total, ← hsource]
    exact Nat.mod_eq_of_lt (by omega)
  · rw [hst.resid]
    exact Nat.mod_eq_of_lt (by omega)

/-- Settles O16: under these conditions `DECODE` has the symbols emitted as its output, T of them (`decodeContainer_ok`), and what the container
parsed to fits the registers (`parseContainer_ok`). -/
theorem decodeCompletes : Obligations.DecodeCompletes := by
  intro s k w hrange hok
  obtain ⟨hparse, hfit, _, hlen⟩ := decodeContainer_ok hok
  obtain ⟨⟨_, hentries, _, _⟩, hresid⟩ := parseContainer_ok hparse
  have houtSize := s.outSize.isLt
  obtain ⟨t, ht, hst⟩ := exec_completed (i := .decode) nofun (decodeOutput_eq_ok hrange hok)
  obtain ⟨hwritten, hkept⟩ := hst.outBuf hlen
  refine ⟨t, ht, hst.phase, hst.done, hst.err, hst.errCode, hst.outLen.trans hlen, ?_, ?_, ?_, hwritten, hkept,
    hst.inBuf, hst.inLen, hst.ctrlIE⟩
  · rw [hst.syms]
    exact Nat.mod_eq_of_lt (by omega)
  · rw [hst.total]
    exact Nat.mod_eq_of_lt (by omega)
  · rw [hst.resid]
    exact Nat.mod_eq_of_lt (by omega)

/-- Settles O22: two such states give a command the same output or error (`commandOutput_congr`), and it is all that is compared. -/
theorem resultsDependOnTheInputAlone : Obligations.ResultsDependOnTheInputAlone := by
  intro i s s' hi hin hout hlen hread
  obtain ⟨g, n, ht⟩ := exec_completeWith hi s
  obtain ⟨g', n', ht'⟩ := exec_completeWith hi s'
  rw [commandOutput_congr _ hin hout hlen fun hrange => inSnapshot_congr (hread hrange)] at ht'
  refine ⟨_, _, ht, ht', ?_⟩
  cases ho : commandOutput (.ok i) s with
  | error e => exact ⟨rfl, rfl, rfl, rfl, rfl, fun _ _ => rfl⟩
  | ok o =>
    have hst := completed_completeWith (commandOutput_fits ho) g n
    have hst' := completed_completeWith (s := s') ((commandOutput_fits ho).trans_eq (congrArg _ hout.symm)) g' n'
    refine ⟨rfl, rfl, rfl, rfl, rfl, fun a ha => ?_⟩
    rw [hst.outLen] at ha
    rw [hst.written a ha, hst'.written a ha]

/-! ### The engine's turn comes (R147, R350) -/

theorem completeWith_phase (s : State) (g : Engine) (n : Nat) (r : Except CommandError Output) : (s.completeWith g n r).phase = .idle := by
  cases r <;> rfl

theorem completeWith_done (s : State) (g : Engine) (n : Nat) (r : Except CommandError Output) : (s.completeWith g n r).done = true := by
  cases r <;> rfl

/-- Settles O10: dutiful transactions leave the engine its turn (`run_command`), and its turn completes the command. -/
theorem acceptedCommandCompletes : Obligations.AcceptedCommandCompletes := by
  intro s hb hr hc hd
  obtain ⟨t, hs, hrun⟩ := run_command s.latency hb hr rfl hd
  obtain ⟨g, n, ht⟩ := engineTurn_completeWith (s := t) (hs.command.symm ▸ hc)
  exact ⟨_, hrun.trans ht, completeWith_phase .., completeWith_done ..⟩

/-! ### Illegal words (R144) -/

theorem engineTurn_of_error {s : State} {e : DecodeError} (h : decodeWord s.command = .error e) : engineTurn s = execIllegal s := by
  rw [engineTurn, h]

/-- What the end of an illegal word reads in `STATUS`. -/
theorem statusWord_illegal (s : State) : statusWord (s.beginCommand.raise .illegalCommand) = 0x00000086 := by
  simp [statusWord, CommandError.code]

theorem statusWord_accept (v : Word) (s : State) : statusWord (s.accept v) = 0x00000001 := by
  simp [statusWord]

/-- `NOP` written to `CMD` has no effect, whatever the phase and `rst`. -/
theorem hostOp_runNop (s : State) : hostOp (hostRUN 0) s = .next s :=
  hostOp_writeReg_ignored (r := .cmd) rfl (writeCmd_nop s)

/-- The step that accepts a word (R140). -/
theorem step_accepts {s : State} {v : Word} {rest : List HostOp} (hp : s.phase = .idle) (hr : s.rst = false)
    (hh : s.host = hostRUN v :: rest) (hv : v ≠ 0) : step s = .next ({ s with host := rest }.accept v) := by
  have hwrite : hostOp (hostRUN v) { s with host := rest } = writeCmd v { s with host := rest } := hostOp_writeReg (r := .cmd) v hr rfl
  rw [step_idle hp hh, hwrite, writeCmd_accepts (by simp [hp]) hv]

/-- Settles O18: the engine's turn raises the error, at once or after the dutiful transactions that the latency leaves to the host
(`run_command`), which reach no field named here. -/
theorem illegalWordEndsInItsError : Obligations.IllegalWordEndsInItsError := by
  refine ⟨fun s e hp hl he => ?_, fun s v e rest hp hr hh he => ?_⟩
  · exact ⟨_, (step_engine hp hl).trans (engineTurn_of_error he), rfl, statusWord_illegal s, rfl, rfl, rfl, rfl, fun _ => rfl,
      rfl, rfl, rfl, rfl⟩
  · have hv : v ≠ 0 := by rintro rfl; cases he
    refine ⟨_, step_accepts hp hr hh hv, rfl, rfl, statusWord_accept v _, rfl, fun hd => ?_⟩
    obtain ⟨t, hs, hrun⟩ := run_command _ (s := { s with host := rest }.accept v) rfl hr rfl hd
    have hturn : engineTurn t = execIllegal t := engineTurn_of_error (e := e) (by rw [hs.command]; exact he)
    refine ⟨_, hrun.trans hturn, rfl, statusWord_illegal t, rfl, rfl, rfl, rfl, fun _ => rfl, ?_⟩
    obtain ⟨_, _, _, _, _, rfl⟩ := hs
    exact ⟨rfl, rfl⟩

/-! ### How a step comes to run a command (R140, R141, R146) -/

/-- Settles O5, by the phase, the latency and the host's list. -/
theorem stepRunsTheDecodedCommand : Obligations.StepRunsTheDecodedCommand := by
  refine ⟨fun s i hp hl hd => ?_, fun s v rest hp _ hh hd => ?_, fun s op rest => step_idle, fun s k op rest => step_busy,
    fun s => step_idle_none, fun s k => step_busy_none⟩
  · rw [step_engine hp hl]
    exact engineTurn_of_command ((decodeWord_ok_iff _ _).1 hd)
  · obtain rfl := (decodeWord_nop_iff v).1 hd
    exact (step_idle hp hh).trans (hostOp_runNop _)

/-- A word that is none of the three commands is illegal (R102). -/
theorem decodeWord_of_ne_encode {w : Word} (h : ∀ i, w ≠ encode i) : ∃ e, decodeWord w = .error e := by
  cases hd : decodeWord w with
  | ok i => exact absurd ((decodeWord_ok_iff w i).1 hd) (h i)
  | error e => exact ⟨e, rfl⟩

/-- Settles O7: a word that is not 0 is accepted (`step_accepts`), and the engine runs what it decodes to. -/
theorem acceptanceClearsAndStarts : Obligations.AcceptanceClearsAndStarts := by
  refine ⟨fun s v rest hp hr hh => ⟨?_, fun hv => ?_⟩, fun s hp hl h0 => ⟨fun h1 => ?_, fun h2 => ?_, fun h1 h2 => ?_⟩⟩
  · rintro rfl
    exact (step_idle hp hh).trans (hostOp_runNop _)
  · exact ⟨_, step_accepts hp hr hh hv, rfl, rfl, rfl, rfl, rfl, rfl, rfl, rfl, rfl, rfl, rfl, rfl, rfl, rfl⟩
  · exact (step_engine hp hl).trans (engineTurn_of_command (i := .encode) h1)
  · exact (step_engine hp hl).trans (engineTurn_of_command (i := .decode) h2)
  · obtain ⟨e, he⟩ := decodeWord_of_ne_encode (w := s.command) fun i => by cases i <;> assumption
    exact (step_engine hp hl).trans (engineTurn_of_error he)

/-- Settles O8: while BUSY each of the three registers ignores a write, and an ignored write changes nothing (`hostOp_writeReg_ignored`). -/
theorem writesWhileBusyAreIgnored : Obligations.WritesWhileBusyAreIgnored := by
  intro s k offset v rest hp hl hoffset hh
  rw [step_busy hp hl hh]
  have hb : State.busy { s with host := rest, latency := k } = true := by simp [hp]
  rcases hoffset with rfl | rfl | rfl
  · exact hostOp_writeReg_ignored (r := .cmd) rfl (writeCmd_busy v hb)
  · exact hostOp_writeReg_ignored (r := .status) rfl (by simp only [writeReg, hb, Bool.not_true, Bool.false_and, Bool.false_eq_true, if_false])
  · exact hostOp_writeReg_ignored (r := .inLen) rfl (congrArg _ (if_pos hb))

/-- Settles O13: `NOP` written to `CMD` has no effect in either phase (`hostOp_runNop`). -/
theorem nopHasNoEffect : Obligations.NopHasNoEffect :=
  ⟨fun _ => rfl, fun _ _ hh hp => (step_idle hp hh).trans (hostOp_runNop _), fun _ _ _ hh hp hl => (step_busy hp hl hh).trans (hostOp_runNop _)⟩

end Sys2Proof.Machine
end

section
/-! PROOFS. Frequency analysis (`41_frequency_analysis.md`): the properties of the entry list (R172) and its order (R171). -/

namespace Sys2Proof.Machine

theorem allSymbols_ascending : allSymbols.Pairwise fun s t => s.toNat < t.toNat := by
  refine List.pairwise_map.2 (List.pairwise_lt_range.imp_of_mem fun {i j} hi hj hij => ?_)
  rw [List.mem_range] at hi hj
  rwa [BitVec.toNat_ofNat, BitVec.toNat_ofNat, Nat.mod_eq_of_lt hi, Nat.mod_eq_of_lt hj]

theorem nodup_map_sym_entryList (freq : Byte → Word) : ((entryList freq).map Entry.sym).Nodup :=
  map_sym_entryList freq ▸ nodup_allSymbols.filter _

/-- The entries are in the order of `allSymbols`, some of its symbols left out. -/
theorem entryList_ascending (freq : Byte → Word) : ((entryList freq).map fun e => e.sym.toNat).Pairwise (· < ·) := by
  have hsyms : ((entryList freq).map Entry.sym).Pairwise fun s t => s.toNat < t.toNat :=
    map_sym_entryList freq ▸ allSymbols_ascending.filter _
  rwa [List.pairwise_map] at hsyms ⊢

section
variable {data : List Byte} (hlen : data.length < 2 ^ 32)
include hlen

theorem encodeEntries_freq_pos {e : Entry} (he : e ∈ encodeEntries data) : 1 ≤ e.freq.toNat := by
  have hmem : e.sym ∈ data := (mem_map_sym_encodeEntries hlen _).1 (List.mem_map_of_mem he)
  rw [encodeEntries_freq hlen he]
  exact List.count_pos_iff.2 hmem

/-- The symbols of the entries are distinct and are the byte values of the data, so there are as many. -/
theorem encodeEntries_length : (encodeEntries data).length = data.toFinset.card := by
  have hsyms : ((encodeEntries data).map Entry.sym).toFinset = data.toFinset := by
    ext s
    rw [List.mem_toFinset, List.mem_toFinset, mem_map_sym_encodeEntries hlen]
  calc (encodeEntries data).length
      = ((encodeEntries data).map Entry.sym).length := (List.length_map _).symm
    _ = ((encodeEntries data).map Entry.sym).toFinset.card := (List.toFinset_card_of_nodup (nodup_map_sym_entryList _)).symm
    _ = data.toFinset.card := congrArg Finset.card hsyms

end

/-- Settles O23: the entries are the symbols that occur, in ascending order, each with its exact count below 2^32 bytes. -/
theorem entryListProperties : Obligations.EntryListProperties := fun _ hlen =>
  ⟨fun _ he => ⟨encodeEntries_freq_pos hlen he, encodeEntries_freq hlen he⟩, nodup_map_sym_entryList _,
    totalCount_encodeEntries hlen, encodeEntries_length hlen, entryList_ascending _⟩

end Sys2Proof.Machine
end

section
/-! PROOFS. The built tree (`42_tree_builder.md`): its invariants (R186) and the worked trees (R189, R190). -/

namespace Sys2Proof.Machine

/-- The root weighs what the seeds weigh together: a merge keeps the sum of the queue's weights. -/
theorem buildTree_weight {es : List Entry} (hne : es ≠ []) : (buildTree es).weight = totalCount es := by
  have hkeeps := buildTree_keeps (fun q => (q.map Tree.weight).sum) (fun _ _ h => (h.map _).sum_eq)
    (fun a b seq rest => by simp [Nat.add_assoc]) hne
  simpa [map_weight_seeds, totalCount] using hkeeps

theorem weightsAdd_seeds (es : List Entry) : ∀ i, ∀ t ∈ seeds es i, t.weightsAdd := by
  induction es with
  | nil => exact fun _ _ ht => absurd ht List.not_mem_nil
  | cons e es ih => exact fun i => List.forall_mem_cons.2 ⟨trivial, ih (i + 1)⟩

/-- A merged node weighs the sum of its children, the first extracted on the right (R183). -/
theorem weightsAdd_mergeNodes {a b : Tree} (ha : a.weightsAdd) (hb : b.weightsAdd) (seq : Nat) : (mergeNodes a b seq).weightsAdd :=
  ⟨Nat.add_comm _ _, hb, ha⟩

theorem buildTree_weightsAdd {es : List Entry} (hpos : 1 ≤ es.length) : (buildTree es).weightsAdd := by
  have hroot := buildTree_invariant (P := fun _ q => ∀ t ∈ q, t.weightsAdd) (fun hperm h t ht => h t (hperm.mem_iff.2 ht))
    (fun {a b n rest} h => by
      obtain ⟨ha, hb, hrest⟩ : a.weightsAdd ∧ b.weightsAdd ∧ ∀ t ∈ rest, t.weightsAdd := by simpa using h
      exact List.forall_mem_cons.2 ⟨weightsAdd_mergeNodes ha hb n, hrest⟩)
    hpos (weightsAdd_seeds es 0)
  exact hroot _ (List.mem_singleton_self _)

/-- The root was numbered last: at every merge the queue holds the node of the number before the next (R181, R183). -/
theorem buildTree_seq {es : List Entry} (hpos : 1 ≤ es.length) : (buildTree es).seq = 2 * es.length - 2 := by
  have hlast : ∃ k ∈ (seeds es 0).map Tree.seq, k + 1 = es.length := by
    rw [map_seq_seeds, ← List.range_eq_range']
    exact ⟨es.length - 1, List.mem_range.2 (by omega), by omega⟩
  have hroot := buildTree_invariant (P := fun n q => ∃ k ∈ q.map Tree.seq, k + 1 = n)
    (fun hperm ⟨k, hk, hn⟩ => ⟨k, (hperm.map _).mem_iff.1 hk, hn⟩) (fun {_ _ n _} _ => ⟨n, List.mem_cons_self, rfl⟩) hpos hlast
  obtain ⟨k, hk, hn⟩ := hroot
  have hseq : k = (buildTree es).seq := List.mem_singleton.1 hk
  omega

/-- Settles O25: what holds of the seeds and is kept by a merge holds of the tree (`buildTree_keeps`, `buildTree_invariant`), and the sum of the
frequencies fits 40 bits (`totalCount_lt`). -/
theorem builtTreeInvariants : Obligations.BuiltTreeInvariants := by
  intro es ⟨hpos, hlen, _, _⟩
  have hne : es ≠ [] := List.ne_nil_of_length_pos hpos
  obtain ⟨hseq, hweight⟩ := buildTree_nodes hpos
  exact ⟨buildTree_weightsAdd hpos, buildTree_symbols_perm hne, buildTree_weight hne, hseq, buildTree_seq hpos,
    fun n hn => ⟨hweight n hn, (hweight n hn).trans_lt (totalCount_lt hlen)⟩⟩

/-- Settles O27: R189's two seed orders and R190's tree are fixed lists, which the builder computes. -/
theorem workedTreesComeOutAsTheSpecSays : Obligations.WorkedTreesComeOutAsTheSpecSays :=
  ⟨by decide, by decide, by decide⟩

end Sys2Proof.Machine
end

section
/-! PROOFS. The code table (`43_code_table.md`): its properties (R203), from what the paths of a tree to its leaves are. -/

namespace Sys2Proof.Machine

/-! ### Paths to leaves: none goes on beyond another, every bit string follows one, and their lengths (R200) -/

theorem mem_paths_of_leafAt {t : Tree} {c : Bits} {s : Byte} (h : t.LeafAt c s) : ∀ p, (s, p ++ c) ∈ t.paths p := by
  induction h with
  | leaf s w q => exact fun p => by simp [Tree.paths]
  | @node w l r q b c s _ ih =>
    intro p
    have hmem := ih (p ++ [b])
    rw [List.append_assoc] at hmem
    cases b with
    | false => exact List.mem_append_left _ hmem
    | true => exact List.mem_append_right _ hmem

/-- A path to a leaf does not go on, since a leaf has no children. -/
theorem leafAt_eq_of_prefix {t : Tree} {c : Bits} {s : Byte} (hc : t.LeafAt c s) :
    ∀ {d : Bits} {u : Byte}, t.LeafAt d u → c <+: d → (s, c) = (u, d) := by
  induction hc with
  | leaf s w q =>
    intro d u hd _
    cases hd
    rfl
  | node _ ih =>
    intro d u hd hpre
    cases hd with
    | node hd =>
      obtain ⟨rfl, htail⟩ := List.cons_prefix_cons.1 hpre
      obtain ⟨rfl, rfl⟩ := Prod.mk.inj (ih hd htail)
      rfl

/-- An internal node has a child for either bit, so every infinite bit string leads to a leaf. -/
theorem exists_leafAt_of_stream (t : Tree) : ∀ f : Nat → Bool, ∃ c s, t.LeafAt c s ∧ c = (List.range c.length).map f := by
  induction t with
  | leaf s w q => exact fun _ => ⟨[], s, .leaf s w q, rfl⟩
  | node w l r q ihl ihr =>
    intro f
    have hchild : ∃ c s, ((Tree.node w l r q).child (f 0)).LeafAt c s ∧ c = (List.range c.length).map (f ∘ Nat.succ) := by
      cases f 0 with
      | false => exact ihl _
      | true => exact ihr _
    obtain ⟨c, s, hleaf, hc⟩ := hchild
    refine ⟨f 0 :: c, s, .node hleaf, ?_⟩
    rw [List.length_cons, List.range_succ_eq_map, List.map_cons, List.map_map, ← hc]

theorem symbols_length_pos (t : Tree) : 0 < t.symbols.length := by
  induction t with
  | leaf => exact Nat.one_pos
  | node w l r q ihl _ =>
    rw [Tree.symbols, List.length_append]
    exact Nat.add_pos_left ihl _

/-- Each internal node on a path has a leaf off the path, on its other side. -/
theorem leafAt_length_lt {t : Tree} {c : Bits} {s : Byte} (h : t.LeafAt c s) : c.length < t.symbols.length := by
  induction h with
  | leaf => exact Nat.one_pos
  | @node w l r q b c s _ ih =>
    have hl := symbols_length_pos l
    have hr := symbols_length_pos r
    rw [List.length_cons, Tree.symbols, List.length_append]
    cases b with
    | false => have : c.length < l.symbols.length := ih; omega
    | true => have : c.length < r.symbols.length := ih; omega

/-- A node's share of the Kraft sum is halved between its children. -/
theorem kraftSum_paths (t : Tree) : ∀ p, ((t.paths p).map fun x => (1 / 2 : ℚ) ^ x.2.length).sum = (1 / 2) ^ p.length := by
  induction t with
  | leaf s w q => exact fun p => by simp [Tree.paths]
  | node w l r q ihl ihr =>
    intro p
    simp only [Tree.paths, List.map_append, List.sum_append, ihl, ihr, List.length_append, List.length_singleton, pow_succ]
    ring

/-! ### The code table's entries (R203) -/

theorem mem_codeTable_node {w : Nat} {l r : Tree} {q : Nat} {x : Byte × Bits} :
    x ∈ codeTable (.node w l r q) ↔ (Tree.node w l r q).LeafAt x.2 x.1 := by
  refine ⟨fun hx => ?_, fun h => mem_paths_of_leafAt h []⟩
  obtain ⟨c, hc, hleaf⟩ := leafAt_of_mem_paths _ hx
  exact hc ▸ hleaf

theorem codeTable_eq_of_prefix {t : Tree} {x y : Byte × Bits} (hx : x ∈ codeTable t) (hy : y ∈ codeTable t) (h : x.2 <+: y.2) :
    x = y := by
  cases t with
  | leaf => rw [List.mem_singleton.1 hx, List.mem_singleton.1 hy]
  | node => exact leafAt_eq_of_prefix (mem_codeTable_node.1 hx) (mem_codeTable_node.1 hy) h

theorem codeTable_length_pos {t : Tree} {x : Byte × Bits} (hx : x ∈ codeTable t) : 0 < x.2.length := by
  cases t with
  | leaf => simp [List.mem_singleton.1 hx]
  | node =>
    obtain ⟨s, c⟩ := x
    cases mem_codeTable_node.1 hx with
    | node => exact Nat.succ_pos _

/-- The path to one of at most 256 leaves has at most 255 bits, and the code of a single leaf has one (R201). -/
theorem codeTable_length_le {t : Tree} {x : Byte × Bits} (hleaves : t.symbols.length ≤ 256) (hx : x ∈ codeTable t) :
    x.2.length ≤ 255 := by
  cases t with
  | leaf => simp [List.mem_singleton.1 hx]
  | node =>
    have := leafAt_length_lt (mem_codeTable_node.1 hx)
    omega

theorem codeOf_eq_nil {s : Byte} {cs : Codes} (h : s ∉ cs.map Prod.fst) : codeOf cs s = [] := by
  induction cs with
  | nil => rfl
  | cons x cs ih =>
    rw [List.map_cons, List.mem_cons, not_or] at h
    obtain ⟨hne, h⟩ := h
    rw [codeOf, if_neg (Ne.symm hne), ih h]

/-- Where no symbol stands twice, a code of the table is the one that is looked up. -/
theorem codeOf_eq_of_mem {cs : Codes} (hnodup : (cs.map Prod.fst).Nodup) {x : Byte × Bits} (hx : x ∈ cs) : codeOf cs x.1 = x.2 :=
  congrArg Prod.snd (List.inj_on_of_nodup_map hnodup (codeOf_mem (List.mem_map_of_mem hx)) hx rfl)

/-- Exactly the symbols at the leaves have a code of positive length. -/
theorem codeOf_codeTable_length_pos_iff {t : Tree} {s : Byte} : 0 < (codeOf (codeTable t) s).length ↔ s ∈ t.symbols := by
  rw [← codeTable_fst]
  refine ⟨fun hpos => ?_, fun hs => codeTable_length_pos (codeOf_mem hs)⟩
  by_contra hs
  rw [codeOf_eq_nil hs] at hpos
  exact absurd hpos (Nat.lt_irrefl 0)

/-- Two initial parts of one bit string: the longer starts with the shorter. -/
theorem map_range_prefix (f : Nat → Bool) {m n : Nat} (h : m ≤ n) : (List.range m).map f <+: (List.range n).map f := by
  have htake : (List.range n).take m = List.range m := by rw [List.take_range, Nat.min_eq_left h]
  exact htake ▸ (List.take_prefix m _).map f

/-- An infinite bit string starts with one code at most. -/
theorem codeTable_eq_of_stream {t : Tree} {x y : Byte × Bits} {f : Nat → Bool} (hx : x ∈ codeTable t) (hy : y ∈ codeTable t)
    (hfx : x.2 = (List.range x.2.length).map f) (hfy : y.2 = (List.range y.2.length).map f) : y = x := by
  rcases Nat.le_total x.2.length y.2.length with h | h
  · exact (codeTable_eq_of_prefix hx hy (by rw [hfx, hfy]; exact map_range_prefix f h)).symm
  · exact codeTable_eq_of_prefix hy hx (by rw [hfx, hfy]; exact map_range_prefix f h)

/-- The code of a tree that is not a single leaf is complete. -/
theorem codeTable_node_complete (w : Nat) (l r : Tree) (q : Nat) :
    ((codeTable (.node w l r q)).map fun x => (1 / 2 : ℚ) ^ x.2.length).sum = 1 ∧
    ∀ f : Nat → Bool, ∃ x ∈ codeTable (.node w l r q), x.2 = (List.range x.2.length).map f ∧
      ∀ y ∈ codeTable (.node w l r q), y.2 = (List.range y.2.length).map f → y = x := by
  refine ⟨(kraftSum_paths (.node w l r q) []).trans (pow_zero _), fun f => ?_⟩
  obtain ⟨c, s, hleaf, hc⟩ := exists_leafAt_of_stream (.node w l r q) f
  have hx : (s, c) ∈ codeTable (.node w l r q) := mem_codeTable_node.2 hleaf
  exact ⟨(s, c), hx, hc, fun y hy hfy => codeTable_eq_of_stream hx hy hc hfy⟩

/-- Settles O28: codes are paths to leaves, so no code starts another (`codeTable_eq_of_prefix`); the leaves are the entries' symbols
(`buildTree_symbols_perm`); and the tree is an internal node where there are two entries or more, a single leaf where there is one. -/
theorem codesArePrefixFreeAndComplete : Obligations.CodesArePrefixFreeAndComplete := by
  rintro es _ ⟨hpos, hlen, hnodup, _⟩ rfl
  have hperm := buildTree_symbols_perm (List.ne_nil_of_length_pos hpos)
  have hleaves : (buildTree es).symbols.length ≤ 256 := by rw [hperm.length_eq, List.length_map]; exact hlen
  have hdistinct : ((codeTable (buildTree es)).map Prod.fst).Nodup := by rw [codeTable_fst]; exact hperm.nodup_iff.2 hnodup
  refine ⟨fun x hx y hy hne hpre => hne (codeTable_eq_of_prefix hx hy hpre),
    fun s => codeOf_codeTable_length_pos_iff.trans hperm.mem_iff,
    fun x hx => ⟨codeOf_eq_of_mem hdistinct hx, codeTable_length_le hleaves hx⟩, fun htwo => ?_, fun hone => ?_⟩
  · obtain ⟨e, es, rfl⟩ := List.exists_cons_of_length_pos hpos
    obtain ⟨d, es, rfl⟩ := List.exists_cons_of_length_pos (Nat.le_of_succ_le_succ htwo)
    obtain ⟨w, l, r, q, htree⟩ := buildTree_isNode e d es
    exact htree ▸ codeTable_node_complete w l r q
  · obtain ⟨e, rfl⟩ := List.length_eq_one_iff.1 hone
    exact ⟨e.sym, rfl⟩

end Sys2Proof.Machine
end

section
/-! PROOFS. The encoder and bit-packer (`44_encoder_bitpacker.md`): the flush at 8 bits (R222), the payload in closed form (R223), the trailer
(R224), and the length and residual length of the container (R225, R226). -/

namespace Sys2Proof.Machine

/-! ### The flush and the trailer (R222, R224) -/

/-- Settles O29: the two lengths are the two branches of `appendBit`, and neither leaves 8 bits (`appendBit_buf_lt`). -/
theorem appendBitFlushesAtEight : Obligations.AppendBitFlushesAtEight := fun _ b hbuf =>
  ⟨appendBit_of_length_eq b, appendBit_of_length_lt b, Nat.le_of_lt_succ (appendBit_buf_lt b (Nat.lt_succ_of_le hbuf))⟩

/-- Settles O31: R fits its byte, and the bits left and the zeros below them are the 8 bits of F. -/
theorem trailerIsLeftJustified : Obligations.TrailerIsLeftJustified := by
  intro buf hbuf
  have hr : (BitVec.ofNat 8 buf.length).toNat = buf.length := Nat.mod_eq_of_lt (by omega)
  have hpadded : (buf ++ List.replicate (8 - buf.length) false).length = 8 := by simp; omega
  exact ⟨_, _, rfl, hr, bits8_byteOfBits_of_length hpadded⟩

/-! ### The payload (R223) -/

/-- Byte j of a byte string is its bits 8j to 8j + 7, whatever follows. -/
theorem take_drop_flatMap_bits8 (bs : List Byte) (rest : Bits) : ∀ j (h : j < bs.length),
    ((bs.flatMap bits8 ++ rest).drop (8 * j)).take 8 = bits8 bs[j] := by
  induction bs with
  | nil => exact fun _ h => absurd h (Nat.not_lt_zero _)
  | cons b bs ih =>
    intro j h
    rw [List.flatMap_cons, List.append_assoc]
    cases j with
    | zero => exact List.take_left' (bits8_length b)
    | succ j =>
      rw [Nat.mul_succ, Nat.add_comm, ← List.drop_drop, List.drop_left' (bits8_length b)]
      exact ih j (Nat.lt_of_succ_lt_succ h)

/-- Bytes and fewer than 8 bits after them are determined by the bit string they form. -/
theorem bytes_and_rest_of_bits {payload : List Byte} {buf bits : Bits} (hbuf : buf.length < 8) (h : payload.flatMap bits8 ++ buf = bits) :
    payload = (List.range (bits.length / 8)).map (fun j => byteOfBits ((bits.drop (8 * j)).take 8)) ∧
      buf = bits.drop (8 * (bits.length / 8)) := by
  subst h
  have hbytes := flatMap_bits8_length payload
  have hcount : (payload.flatMap bits8 ++ buf).length / 8 = payload.length := by rw [List.length_append]; omega
  rw [hcount]
  constructor
  · refine List.ext_getElem (by simp) fun j hj _ => ?_
    rw [List.getElem_map, List.getElem_range, take_drop_flatMap_bits8 payload buf j hj, byteOfBits_bits8]
  · exact (List.drop_left' hbytes).symm

/-- Settles O30: the bits of the emitted bytes, then the fewer than 8 in the buffer, are the coded bits in order (`foldl_appendBit_bits`). -/
theorem payloadClosedForm : Obligations.PayloadClosedForm := by
  rintro es cs data _ rfl
  have hempty : (⟨headerBytes es, []⟩ : Packer).buf.length < 8 := Nat.zero_lt_succ 7
  have hlt := foldl_appendBit_buf_lt (symbolBits cs data) _ hempty
  obtain ⟨payload, hout, hbits⟩ := foldl_appendBit_bits (symbolBits cs data) hempty
  obtain ⟨hpayload, hbuf⟩ := bytes_and_rest_of_bits hlt hbits
  rw [packSymbols, appendSymbols_eq, hout]
  exact ⟨congrArg _ hpayload, hbuf⟩

/-! ### The container's length and its residual length (R225, R226) -/

theorem packSymbols_buf_length (es : List Entry) (cs : Codes) (data : List Byte) :
    (packSymbols es cs data).buf.length = (symbolBits cs data).length % 8 := by
  obtain ⟨_, hbuf⟩ := payloadClosedForm es cs data _ rfl
  rw [hbuf, List.length_drop]
  omega

/-- The byte after the emitted ones is R, the number of bits left over. -/
theorem packContainer_resid (es : List Entry) (cs : Codes) (data : List Byte) :
    (packContainer es cs data)[(packSymbols es cs data).out.length]? = some (BitVec.ofNat 8 ((symbolBits cs data).length % 8)) := by
  rw [packContainer, List.getElem?_append_right le_rfl, Nat.sub_self, ← packSymbols_buf_length es cs data]
  rfl

/-- Settles O32: the coded bits number Bt (`symbolBits_length`), so the emitted bytes end two before the checked size, where R is. -/
theorem containerLengthIsTheCheckedSize : Obligations.ContainerLengthIsTheCheckedSize := by
  intro data _ hlen
  have hbits := symbolBits_length hlen
  refine ⟨hbits, encodeContainer_length hlen, ?_⟩
  have hout : (packSymbols (encodeEntries data) (encodeCodes data) data).out.length = encodeSize data - 2 := by
    rw [packSymbols_out_length, hbits]; rfl
  rw [← hout, encodeContainer, packContainer_resid, hbits]
  exact congrArg some (Nat.mod_eq_of_lt (show encodeBits data % 8 < 2 ^ 8 by omega))

end Sys2Proof.Machine
end

section
/-! PROOFS. The decoder, parsing (`45_decoder.md`): the container's checks in order over its offsets (R250, R251). -/

namespace Sys2Proof.Machine

/-! ### The stored entries and the entry loop (R104, R250) -/

/-- Entry `i` of bytes that start behind the word L (R104). -/
def storedEntry (bs : List Byte) (i : Nat) : Entry :=
  ⟨bs.getD (5 * i) 0, be32 (bs.getD (5 * i + 1) 0) (bs.getD (5 * i + 2) 0) (bs.getD (5 * i + 3) 0) (bs.getD (5 * i + 4) 0)⟩

/-- The first `n` entries of such bytes, in stored order. -/
def storedEntries (n : Nat) (bs : List Byte) : List Entry := (List.range n).map (storedEntry bs)

/-- What the entry loop demands of entries: distinct symbols and no zero frequency (R250). -/
abbrev EntriesAccepted (es : List Entry) : Prop := (es.map Entry.sym).Nodup ∧ ∀ e ∈ es, e.freq ≠ 0

@[simp] theorem storedEntries_length (n : Nat) (bs : List Byte) : (storedEntries n bs).length = n := by simp [storedEntries]

theorem storedEntries_cons (n : Nat) (s b0 b1 b2 b3 : Byte) (bs : List Byte) :
    storedEntries (n + 1) (s :: b0 :: b1 :: b2 :: b3 :: bs) = ⟨s, be32 b0 b1 b2 b3⟩ :: storedEntries n bs := by
  rw [storedEntries, List.range_succ_eq_map, List.map_cons, List.map_map]
  rfl

theorem exists_five_cons {bs : List Byte} {n : Nat} (h : 5 * (n + 1) ≤ bs.length) :
    ∃ s b0 b1 b2 b3 rest, bs = s :: b0 :: b1 :: b2 :: b3 :: rest ∧ 5 * n ≤ rest.length := by
  match bs, h with
  | s :: b0 :: b1 :: b2 :: b3 :: rest, h => exact ⟨s, b0, b1, b2, b3, rest, rfl, by simp only [List.length_cons] at h; omega⟩
  | [], h | [_], h | [_, _], h | [_, _, _], h | [_, _, _, _], h => simp at h <;> omega

/-- The bytes of the stored entries are those they were read from (R14, R104). -/
theorem storedEntries_bytes (n : Nat) : ∀ {bs : List Byte}, 5 * n ≤ bs.length →
    (storedEntries n bs).flatMap (fun e => e.sym :: be32enc e.freq) = bs.take (5 * n) := by
  induction n with
  | zero => exact fun _ => by simp [storedEntries]
  | succ n ih =>
    intro bs hlen
    obtain ⟨s, b0, b1, b2, b3, rest, rfl, hrest⟩ := exists_five_cons hlen
    rw [storedEntries_cons, List.flatMap_cons, ih hrest, be32enc_be32]
    rfl

theorem entriesAccepted_of_append {es ds : List Entry} (h : EntriesAccepted (es ++ ds)) : EntriesAccepted es := by
  obtain ⟨hnodup, hfreq⟩ := h
  rw [List.map_append] at hnodup
  exact ⟨hnodup.of_append_left, fun e he => hfreq e (List.mem_append_left _ he)⟩

/-- One more entry is accepted by the two checks of the entry loop. -/
theorem entriesAccepted_concat_iff {acc : List Entry} (hacc : EntriesAccepted acc) (e : Entry) :
    EntriesAccepted (acc ++ [e]) ↔ e.freq ≠ 0 ∧ ¬ acc.any (fun d => d.sym == e.sym) = true := by
  obtain ⟨hnodup, hfreq⟩ := hacc
  have hfresh : ¬ acc.any (fun d => d.sym == e.sym) = true ↔ e.sym ∉ acc.map Entry.sym := by simp
  have hsyms : ((acc ++ [e]).map Entry.sym).Nodup ↔ e.sym ∉ acc.map Entry.sym := by
    rw [List.map_append, List.map_singleton, List.nodup_append_comm, List.singleton_append, List.nodup_cons, and_iff_left hnodup]
  rw [EntriesAccepted, hsyms, hfresh, and_comm, List.forall_mem_append, and_iff_right hfreq, List.forall_mem_singleton]

/-- The entry loop over enough bytes reads all entries or finds a malformed header. -/
theorem parseEntries_eq (n : Nat) : ∀ {rest : List Byte} {acc : List Entry}, 5 * n ≤ rest.length → EntriesAccepted acc →
    parseEntries n rest acc =
      if EntriesAccepted (acc ++ storedEntries n rest) then .ok (acc ++ storedEntries n rest, rest.drop (5 * n))
      else .error .malformedHeader := by
  induction n with
  | zero =>
    intro rest acc _ hacc
    simp only [storedEntries, List.range_zero, List.map_nil, List.append_nil]
    rw [if_pos hacc, Nat.mul_zero, List.drop_zero, parseEntries]
  | succ n ih =>
    intro rest acc hlen hacc
    obtain ⟨s, b0, b1, b2, b3, rest, rfl, hrest⟩ := exists_five_cons hlen
    have hstep := entriesAccepted_concat_iff hacc ⟨s, be32 b0 b1 b2 b3⟩
    rw [storedEntries_cons, parseEntries, List.append_cons acc _ (storedEntries n rest)]
    by_cases hnext : EntriesAccepted (acc ++ [⟨s, be32 b0 b1 b2 b3⟩])
    · obtain ⟨hzero, hdup⟩ := hstep.1 hnext
      rw [if_neg hzero, if_neg hdup, ih hrest hnext]
      rfl
    · rw [if_neg fun h => hnext (entriesAccepted_of_append h)]
      split_ifs with hzero hdup
      · rfl
      · rfl
      · exact absurd (hstep.2 ⟨hzero, hdup⟩) hnext

/-! ### The parser in closed form (R250) -/

/-- L, the word at the front of a container (R104). -/
def storedCount (c : List Byte) : Nat := (be32 (c.getD 0 0) (c.getD 1 0) (c.getD 2 0) (c.getD 3 0)).toNat

theorem parseContainer_of_length_lt {c : List Byte} (h : c.length < 4) : parseContainer c = .error .malformedHeader := by
  match c, h with
  | [], _ | [_], _ | [_, _], _ | [_, _, _], _ => rfl

theorem exists_four_cons {c : List Byte} (h : 4 ≤ c.length) : ∃ l0 l1 l2 l3 rest, c = l0 :: l1 :: l2 :: l3 :: rest := by
  match c, h with
  | l0 :: l1 :: l2 :: l3 :: rest, _ => exact ⟨l0, l1, l2, l3, rest, rfl⟩

/-- The checks on the header and its entries, in their order, on a container of at least 4 bytes; what is left is the trailer's check. -/
theorem parseContainer_eq {c : List Byte} (h : 4 ≤ c.length) :
    parseContainer c =
      if storedCount c = 0 ∨ 256 < storedCount c ∨ c.length < 4 + 5 * storedCount c then .error .malformedHeader
      else if EntriesAccepted (storedEntries (storedCount c) (c.drop 4)) then
        if c.length < 4 + 5 * storedCount c + 2 then .error .truncatedPayload
        else parseTrailer (storedEntries (storedCount c) (c.drop 4)) (c.drop (4 + 5 * storedCount c))
      else .error .malformedHeader := by
  obtain ⟨l0, l1, l2, l3, rest, rfl⟩ := exists_four_cons h
  have hl : (be32 l0 l1 l2 l3).toNat = storedCount (l0 :: l1 :: l2 :: l3 :: rest) := rfl
  generalize storedCount (l0 :: l1 :: l2 :: l3 :: rest) = l at hl ⊢
  simp only [parseContainer, hl]
  by_cases h0 : l = 0
  · rw [if_pos h0, if_pos (.inl h0)]
  by_cases h256 : 256 < l
  · rw [if_neg h0, if_pos h256, if_pos (.inr (.inl h256))]
  by_cases hshort : (l0 :: l1 :: l2 :: l3 :: rest).length < 4 + 5 * l
  · rw [if_neg h0, if_neg h256, if_pos hshort, if_pos (.inr (.inr hshort))]
  have hrest : 5 * l ≤ rest.length := by rw [List.length_cons, List.length_cons, List.length_cons, List.length_cons] at hshort; omega
  rw [if_neg h0, if_neg h256, if_neg hshort, if_neg (by tauto), parseEntries_eq (acc := []) l hrest ⟨List.nodup_nil, nofun⟩, List.nil_append]
  rw [show List.drop (4 + 5 * l) (l0 :: l1 :: l2 :: l3 :: rest) = rest.drop (5 * l) by rw [← List.drop_drop]; rfl]
  rw [show List.drop 4 (l0 :: l1 :: l2 :: l3 :: rest) = rest from rfl]
  by_cases haccepted : EntriesAccepted (storedEntries l rest)
  · rw [if_pos haccepted, if_pos haccepted]
  · rw [if_neg haccepted, if_neg haccepted]

/-- The trailer check, over the offsets of the container (R104, R250). -/
theorem parseTrailer_drop (es : List Entry) {c : List Byte} {n : Nat} (h : n + 2 ≤ c.length) :
    parseTrailer es (c.drop n) =
      if 8 < (c.getD (c.length - 2) 0).toNat then .error .invalidResidualLength
      else .ok ⟨es, (c.drop n).take (c.length - 2 - n), (c.getD (c.length - 2) 0).toNat, c.getD (c.length - 1) 0⟩ := by
  have hget : ∀ i, i ≤ 2 → 1 ≤ i → (c.drop n).getD ((c.drop n).length - i) 0 = c.getD (c.length - i) 0 := fun i hi _ => by
    rw [List.getD_eq_getElem?_getD, List.getElem?_drop, List.length_drop, show n + (c.length - n - i) = c.length - i by omega,
      ← List.getD_eq_getElem?_getD]
  rw [parseTrailer, hget 2 le_rfl one_le_two, hget 1 one_le_two le_rfl, List.length_drop,
    show c.length - n - 2 = c.length - 2 - n by omega]

/-- Over the offsets, entries are accepted when no frequency is zero and no symbol stands earlier. -/
theorem entriesAccepted_map_range_iff (n : Nat) (entry : Nat → Entry) : EntriesAccepted ((List.range n).map entry) ↔
    ∀ i, i < n → (entry i).freq ≠ 0 ∧ ∀ j, j < i → (entry j).sym ≠ (entry i).sym := by
  have hnodup : (((List.range n).map entry).map Entry.sym).Nodup ↔ ∀ i, i < n → ∀ j, j < i → (entry j).sym ≠ (entry i).sym := by
    rw [List.nodup_iff_pairwise_ne, List.pairwise_iff_getElem]
    simp only [List.length_map, List.length_range, List.getElem_map, List.getElem_range]
    exact ⟨fun h i hi j hj => h j i (hj.trans hi) hi hj, fun h j i _ hi hj => h i hi j hj⟩
  simp only [EntriesAccepted, hnodup, List.forall_mem_map, List.mem_range]
  exact ⟨fun ⟨hs, hf⟩ i hi => ⟨hf i hi, hs i hi⟩, fun h => ⟨fun i hi => (h i hi).2, fun i hi => (h i hi).1⟩⟩

/-- Settles O34: the closed form of the parser (`parseContainer_eq`, `parseTrailer_drop`) read over the offsets, where a header that fits is
refused exactly when one of its entries is (`entriesAccepted_map_range_iff`). -/
theorem parseChecksInOrder : Obligations.ParseChecksInOrder := by
  intro c b l sym freq hb hl hsym hfreq
  have hcount : storedCount c = l := by rw [hl, hb, hb, hb, hb, storedCount]
  have hbyte : ∀ i m, (c.drop 4).getD (5 * i + m) 0 = b (4 + m + 5 * i) := fun i m => by
    rw [hb, List.getD_eq_getElem?_getD, List.getElem?_drop, List.getD_eq_getElem?_getD, show 4 + (5 * i + m) = 4 + m + 5 * i by omega]
  have hentries : storedEntries l (c.drop 4) = (List.range l).map fun i => ⟨sym i, freq i⟩ := by
    refine List.map_congr_left fun i _ => ?_
    have hsym' : sym i = (c.drop 4).getD (5 * i) 0 := (hsym i).trans (hbyte i 0).symm
    rw [storedEntry, hbyte i 1, hbyte i 2, hbyte i 3, hbyte i 4, hsym', hfreq]
  have hiff := entriesAccepted_map_range_iff l fun i => ⟨sym i, freq i⟩
  have hheader : 4 ≤ c.length → 1 ≤ l → l ≤ 256 → 4 + 5 * l ≤ c.length → ¬ (l = 0 ∨ 256 < l ∨ c.length < 4 + 5 * l) := by omega
  refine ⟨parseContainer_of_length_lt, fun h4 hbad => ?_, fun h4 hpos hle hfit => ?_⟩
  · rw [parseContainer_eq h4, hcount, if_pos hbad]
  rw [parseContainer_eq h4, hcount, hentries, if_neg (hheader h4 hpos hle hfit)]
  refine ⟨fun ⟨i, hi, hbad⟩ => if_neg fun haccepted => ?_, fun hgood => ?_⟩
  · obtain ⟨hne, hfresh⟩ := hiff.1 haccepted i hi
    exact hbad.elim hne fun ⟨j, hj, heq⟩ => hfresh j hj heq
  rw [if_pos (hiff.2 hgood)]
  refine ⟨fun hshort => if_pos hshort, fun htrailer hr => ?_, fun htrailer hr => ?_⟩
  · rw [if_neg (Nat.not_lt.2 htrailer), parseTrailer_drop _ htrailer, ← hb, if_pos hr]
  · rw [if_neg (Nat.not_lt.2 htrailer), parseTrailer_drop _ htrailer, ← hb, ← hb, if_neg (Nat.not_lt.2 hr)]

end Sys2Proof.Machine
end

section
/-! PROOFS. The decoder, containers and their parts (`45_decoder.md`): a container parses to its parts and no other way (R250), what `ENCODE`
wrote parses back (R262), and what of a container a decode depends on (R259, R263). -/

namespace Sys2Proof.Machine

/-! ### A container that parses is its parts (R250, R251) -/

theorem take_append_last_two {bs : List Byte} (h : 2 ≤ bs.length) :
    bs.take (bs.length - 2) ++ [bs.getD (bs.length - 2) 0, bs.getD (bs.length - 1) 0] = bs := by
  have hlast : bs.drop (bs.length - 2) = [bs.getD (bs.length - 2) 0, bs.getD (bs.length - 1) 0] := by
    rw [List.drop_eq_getElem_cons (by omega), List.drop_eq_getElem_cons (by omega), List.drop_of_length_le (by omega),
      List.getD_eq_getElem _ _ (by omega), List.getD_eq_getElem _ _ (by omega)]
    congr 3
    omega
  rw [← hlast, List.take_append_drop]

theorem parseTrailer_ok {es : List Entry} {tail : List Byte} {k : Container} (hlen : 2 ≤ tail.length) (h : parseTrailer es tail = .ok k) :
    k.entries = es ∧ tail = k.payload ++ [BitVec.ofNat 8 k.resid, k.final] := by
  rw [parseTrailer] at h
  split at h
  · cases h
  · cases h
    exact ⟨rfl, by rw [BitVec.ofNat_toNat, BitVec.setWidth_eq, take_append_last_two hlen]⟩

/-- The header of the entries stored in a container is its first bytes. -/
theorem headerBytes_storedEntries {c : List Byte} (h4 : 4 ≤ c.length) (hfit : 4 + 5 * storedCount c ≤ c.length) :
    headerBytes (storedEntries (storedCount c) (c.drop 4)) = c.take (4 + 5 * storedCount c) := by
  have hrest : 5 * storedCount c ≤ (c.drop 4).length := by rw [List.length_drop]; omega
  have hcount : be32enc (BitVec.ofNat 32 (storedCount c)) = c.take 4 := by
    obtain ⟨l0, l1, l2, l3, rest, rfl⟩ := exists_four_cons h4
    rw [storedCount, BitVec.ofNat_toNat, BitVec.setWidth_eq, be32enc_be32]
    rfl
  rw [headerBytes, storedEntries_length, hcount, storedEntries_bytes _ hrest, List.take_add]

/-- `parseContainer_parts` the other way: what parses to a container is its header, its payload and its trailer. -/
theorem parts_of_parseContainer {c : List Byte} {k : Container} (h : parseContainer c = .ok k) :
    c = headerBytes k.entries ++ k.payload ++ [BitVec.ofNat 8 k.resid, k.final] := by
  have h4 : 4 ≤ c.length := by
    by_contra hshort
    rw [parseContainer_of_length_lt (Nat.not_le.1 hshort)] at h
    cases h
  rw [parseContainer_eq h4] at h
  split_ifs at h with hheader haccepted hshort
  have htail : 2 ≤ (c.drop (4 + 5 * storedCount c)).length := by rw [List.length_drop]; omega
  obtain ⟨hentries, hparts⟩ := parseTrailer_ok htail h
  calc c = c.take (4 + 5 * storedCount c) ++ c.drop (4 + 5 * storedCount c) := (List.take_append_drop ..).symm
    _ = headerBytes k.entries ++ (k.payload ++ [BitVec.ofNat 8 k.resid, k.final]) := by
      rw [← hparts, hentries, headerBytes_storedEntries h4 (by omega)]
    _ = headerBytes k.entries ++ k.payload ++ [BitVec.ofNat 8 k.resid, k.final] := (List.append_assoc ..).symm

/-! ### What `ENCODE` wrote (R227, R262) -/

/-- The container `ENCODE` writes, in parts: the payload's bits and the at most 7 bits of the trailer are the coded bits. -/
theorem encodeContainer_parts {data : List Byte} (hlen : data.length < 2 ^ 32) : ∃ (payload : List Byte) (r f : Byte),
    encodeContainer data = headerBytes (encodeEntries data) ++ payload ++ [r, f] ∧ payload.length = encodeBits data / 8 ∧
      r.toNat = encodeBits data % 8 ∧ payload.flatMap bits8 ++ (bits8 f).take r.toNat = symbolBits (encodeCodes data) data := by
  obtain ⟨payload, buf, hparts, hbuf, hbits⟩ := packContainer_parts (encodeEntries data) (encodeCodes data) data
  have hr : (BitVec.ofNat 8 buf.length).toNat = buf.length := Nat.mod_eq_of_lt (by omega)
  have hcount : 8 * payload.length + buf.length = encodeBits data := by
    rw [← flatMap_bits8_length, ← List.length_append, hbits, encodeCodes, encodeTree]
    exact symbolBits_length hlen
  refine ⟨payload, _, _, hparts, by omega, by omega, ?_⟩
  rw [hr, take_bits8_trailer hbuf, hbits]

/-- Settles O33: the container's parts (`encodeContainer_parts`) are what it parses to (`parseContainer_parts`). -/
theorem encodedContainerParsesBack : Obligations.EncodedContainerParsesBack := by
  intro data hne hlen
  obtain ⟨payload, r, f, hparts, _, hr, hbits⟩ := encodeContainer_parts hlen
  have hr7 : r.toNat ≤ 7 := by omega
  exact ⟨⟨_, payload, r.toNat, f⟩, hparts ▸ parseContainer_parts (buildContract_encodeEntries hlen hne) payload (by omega) f, rfl,
    totalCount_encodeEntries hlen, hr, hr7, hbits⟩

/-! ### What a decode depends on (R259, R263) -/

/-- Two containers with the same entries and the same meaningful bits decode to the same walk result or the same error. -/
theorem decodeContainer_congr {c d : List Byte} {k k' : Container} (hc : parseContainer c = .ok k) (hd : parseContainer d = .ok k')
    (hentries : k'.entries = k.entries) (hbits : meaningfulBits k' = meaningfulBits k) (outSize : Nat) :
    (decodeContainer outSize d).map Prod.snd = (decodeContainer outSize c).map Prod.snd := by
  simp only [decodeContainer, hc, hd, hentries, hbits]
  split_ifs with hfit
  · rfl
  · cases walk (buildTree k.entries) k.entries (meaningfulBits k) (totalCount k.entries) <;> rfl

/-- Settles O40: with another last byte the parts are the same but F (`parts_of_parseContainer`), and its top R bits are the meaningful ones. -/
theorem paddingBitsAreIgnored : Obligations.PaddingBitsAreIgnored := by
  intro outSize pre f g k hparse hagree
  obtain ⟨hes, hr⟩ := parseContainer_ok hparse
  have hresid : (BitVec.ofNat 8 k.resid).toNat = k.resid := Nat.mod_eq_of_lt (by omega)
  have hparts := parts_of_parseContainer hparse
  rw [List.append_cons (headerBytes k.entries ++ k.payload)] at hparts
  obtain ⟨hpre, hlast⟩ := List.append_inj' hparts rfl
  have hf : f = k.final := List.singleton_inj.1 hlast
  have hparse' : parseContainer (pre ++ [g]) = .ok ⟨k.entries, k.payload, k.resid, g⟩ := by
    have h := parseContainer_parts hes k.payload (hresid.trans_le hr) g
    rwa [hresid, List.append_cons, ← hpre] at h
  refine ⟨⟨_, hparse', rfl, rfl, rfl⟩, decodeContainer_congr hparse hparse' rfl ?_ outSize⟩
  rw [hf] at hagree
  exact congrArg (k.payload.flatMap bits8 ++ ·) hagree.symm

/-- Settles O41: F put before R = 0 is one more payload byte (`parts_of_parseContainer`), and all its 8 bits were meaningful at R = 8. -/
theorem residualEightIsOneMorePayloadByte : Obligations.ResidualEightIsOneMorePayloadByte := by
  intro outSize c k hparse hresid
  obtain ⟨hes, _⟩ := parseContainer_ok hparse
  have hparts := parts_of_parseContainer hparse
  have hmoved : c.take (c.length - 2) ++ [k.final, 0, 0] = headerBytes k.entries ++ (k.payload ++ [k.final]) ++ [0, 0] := by
    have htake : c.take (c.length - 2) = headerBytes k.entries ++ k.payload := by
      rw [hparts, List.length_append]
      exact List.take_left' (Nat.add_sub_cancel ..).symm
    rw [htake]
    simp
  have hparse' := parseContainer_parts hes (k.payload ++ [k.final]) (r := 0) (Nat.zero_le 8) 0
  rw [hmoved]
  refine decodeContainer_congr hparse hparse' rfl ?_ outSize
  have hall : (bits8 k.final).take 8 = bits8 k.final := rfl
  simp [meaningfulBits, hresid, hall]

end Sys2Proof.Machine
end

section
/-! PROOFS. The decoder, the walk (`45_decoder.md`): how it ends (R255, R258), and the walk for L = 1 (R256). -/

namespace Sys2Proof.Machine

/-! ### The end of the walk (R255, R258) -/

/-- A bit after T symbols is an excess bit, for L = 1 as for L ≥ 2. -/
theorem walkBits_excess (root : Tree) {total : Nat} {w : WalkState} (h : w.dcount = total) (b : Bool) (m : Bits) :
    walkBits root total (b :: m) w = .error .treeReconstructionMismatch := by
  have hbit : walkBit root total w b = .error .treeReconstructionMismatch := by cases root <;> exact if_pos h
  rw [walkBits, hbit]

/-- A bit that raises does so with a mismatch. -/
theorem walkBit_error {root : Tree} {total : Nat} {w : WalkState} {b : Bool} {e : CommandError} (h : walkBit root total w b = .error e) :
    e = .treeReconstructionMismatch := by
  cases root with
  | leaf s v q =>
    rw [walkBit, walkBitSingle] at h
    split_ifs at h <;> exact (Except.error.inj h).symm
  | node v l r q =>
    rw [walkBit, walkBitTree] at h
    split_ifs at h
    · exact (Except.error.inj h).symm
    · split at h
      · split_ifs at h
        exact (Except.error.inj h).symm
      · cases h

theorem walkBits_error {root : Tree} {total : Nat} {e : CommandError} (m : Bits) : ∀ {w : WalkState},
    walkBits root total m w = .error e → e = .treeReconstructionMismatch := by
  induction m with
  | nil => exact fun h => by cases h
  | cons b m ih =>
    intro w h
    rw [walkBits] at h
    cases hb : walkBit root total w b with
    | error e' =>
      rw [hb] at h
      exact Except.error.inj h ▸ walkBit_error hb
    | ok w' =>
      rw [hb] at h
      exact ih h

section
variable {root : Tree} {es : List Entry} {m : Bits} {total : Nat}

/-- The walk raises what a bit raises. -/
theorem walk_of_mismatch (h : walkBits root total m (walkStart root es) = .error .treeReconstructionMismatch) :
    walk root es m total = .error .treeReconstructionMismatch := by
  rw [walk, h]

/-- The walk raises a shortfall when its bits end before T symbols (R258). -/
theorem walk_of_shortfall {w : WalkState} (h : walkBits root total m (walkStart root es) = .ok w) (hshort : w.dcount < total) :
    walk root es m total = .error .truncatedPayload := by
  rw [walk, h]
  exact if_pos hshort

theorem walk_of_complete {w : WalkState} (h : walkBits root total m (walkStart root es) = .ok w) (hfull : w.dcount = total) :
    walk root es m total = .ok w := by
  rw [walk, h]
  exact if_neg hfull.not_lt

/-- A walk that succeeds did so bit by bit and came to T symbols. -/
theorem walkBits_of_walk_ok {w : WalkState} (h : walk root es m total = .ok w) :
    walkBits root total m (walkStart root es) = .ok w ∧ w.dcount = total := by
  refine ⟨?_, (walk_ok_length h).1⟩
  rw [walk] at h
  split at h
  · cases h
  · split_ifs at h
    cases h
    assumption

/-- The two errors of a walk. -/
theorem walk_error {e : CommandError} (h : walk root es m total = .error e) : e = .truncatedPayload ∨ e = .treeReconstructionMismatch := by
  rw [walk] at h
  split at h
  next _ he =>
    cases h
    exact .inr (walkBits_error m he)
  next =>
    split_ifs at h
    cases h
    exact .inl rfl

end

/-! ### The walk for L = 1 (R256) -/

/-- Zeros emit the one symbol, up to T of them. -/
theorem walkBits_single_zeros {s : Byte} {v q total : Nat} (n : Nat) : ∀ {w : WalkState}, w.cursor = .leaf s v q → w.dcount + n ≤ total →
    walkBits (.leaf s v q) total (List.replicate n false) w = .ok (w.emit (.leaf s v q) (List.replicate n s)) := by
  induction n with
  | zero =>
    intro w hroot _
    simp [walkBits, WalkState.emit, ← hroot]
  | succ n ih =>
    intro w hroot htotal
    have hbit : walkBit (.leaf s v q) total w false = .ok (w.emit (.leaf s v q) [s]) := by
      simp only [walkBit, walkBitSingle, WalkState.emit, hroot]
      rw [if_neg (by omega)]
      rfl
    rw [List.replicate_succ, walkBits, hbit, List.replicate_succ, ← emit_cons _ w s (List.replicate n s)]
    exact ih (w := w.emit _ [s]) rfl (by simp only [WalkState.emit, List.length_singleton]; omega)

/-- A 1 bit, or more bits than symbols are left, is a mismatch. -/
theorem walkBits_single_mismatch {s : Byte} {v q total : Nat} (m : Bits) : ∀ {w : WalkState}, w.dcount ≤ total →
    total < w.dcount + m.length ∨ true ∈ m → walkBits (.leaf s v q) total m w = .error .treeReconstructionMismatch := by
  induction m with
  | nil =>
    intro w hle hbad
    simp at hbad
    omega
  | cons b m ih =>
    intro w hle hbad
    by_cases hfull : w.dcount = total
    · exact walkBits_excess _ hfull b m
    · cases b with
      | true => simp [walkBits, walkBit, walkBitSingle]
      | false =>
        simp only [walkBits, walkBit, walkBitSingle, if_neg hfull]
        exact ih (Nat.lt_of_le_of_ne hle hfull) (hbad.imp
          (fun h : total < w.dcount + (m.length + 1) => (by omega : total < w.dcount + 1 + m.length))
          fun h : true ∈ false :: m => (List.mem_cons.1 h).resolve_left Bool.false_ne_true.symm)

theorem eq_replicate_false {m : Bits} (h : true ∉ m) : m = List.replicate m.length false :=
  List.eq_replicate_of_mem fun b hb => by
    cases b with
    | false => rfl
    | true => exact absurd hb h

/-- Settles O37: a bad bit or an excess bit raises (`walkBits_single_mismatch`), and zeros, at most T of them, emit one symbol each. -/
theorem singleSymbolWalk : Obligations.SingleSymbolWalk := by
  intro s v q total es m
  have hzeros : true ∉ m → m.length ≤ total → walkBits (.leaf s v q) total m (walkStart (.leaf s v q) es) =
      .ok ((walkStart (.leaf s v q) es).emit (.leaf s v q) (List.replicate m.length s)) := fun hm hle => by
    have h := walkBits_single_zeros m.length (w := walkStart (.leaf s v q) es) rfl (by simpa [walkStart] using hle)
    rwa [← eq_replicate_false hm] at h
  have hcount : ((walkStart (.leaf s v q) es).emit (.leaf s v q) (List.replicate m.length s)).dcount = m.length := by
    simp [WalkState.emit, walkStart]
  refine ⟨fun hbad => ?_, fun hshort hm => ?_, fun hfull hm => ?_⟩
  · exact walk_of_mismatch (walkBits_single_mismatch m (Nat.zero_le _) (by simpa [walkStart] using hbad))
  · exact walk_of_shortfall (hzeros hm hshort.le) (hcount.trans_lt hshort)
  · exact ⟨_, walk_of_complete (hzeros hm hfull.le) (hcount.trans hfull), by simp [WalkState.emit, walkStart, hfull], hcount.trans hfull⟩

end Sys2Proof.Machine
end

section
/-! PROOFS. The decoder, the walk over codes (`45_decoder.md`): full codes, part of a code, and the code of a symbol whose counter is spent
(R255, R257, R258, R260). -/

namespace Sys2Proof.Machine

/-! ### Along a code (R255, R257, R260) -/

/-- The tree of a header is one leaf or an internal node (R184, R185). -/
theorem eq_singleton_or_buildTree_node {es : List Entry} (hpos : 1 ≤ es.length) :
    (∃ e, es = [e]) ∨ ∃ v l r q, buildTree es = .node v l r q := by
  match es, hpos with
  | [e], _ => exact .inl ⟨e, rfl⟩
  | e :: d :: es, _ => exact .inr (buildTree_isNode e d es)

/-- The code of L = 1 (R201). -/
theorem codeOf_leaf (s : Byte) (v q : Nat) : codeOf (codeTable (.leaf s v q)) s = [false] := if_pos rfl

theorem leafAt_nil {t : Tree} {s : Byte} (h : t.LeafAt [] s) : ∃ v q, t = .leaf s v q := by
  cases h
  exact ⟨_, _, rfl⟩

theorem leafAt_child {t : Tree} {b : Bool} {c : Bits} {s : Byte} (h : t.LeafAt (b :: c) s) : (t.child b).LeafAt c s := by
  cases h
  assumption

theorem isNode_of_leafAt {t : Tree} {c : Bits} {s : Byte} (h : t.LeafAt c s) (hc : c ≠ []) : ∃ v l r q, t = .node v l r q := by
  cases h with
  | leaf => exact absurd rfl hc
  | node => exact ⟨_, _, _, _, rfl⟩

/-- On the way to a leaf the walk descends and emits nothing, up to the bit before the last. -/
theorem walkBits_toward_leaf {v : Nat} {l r : Tree} {q total : Nat} {b : Bool} {c : Bits} {s : Byte} (pre : Bits) : ∀ {w : WalkState},
    w.cursor.LeafAt (pre ++ b :: c) s → w.dcount ≠ total →
    ∃ t, walkBits (.node v l r q) total pre w = .ok { w with cursor := t } ∧ t.LeafAt (b :: c) s := by
  induction pre with
  | nil => exact fun {w} hleaf _ => ⟨w.cursor, rfl, hleaf⟩
  | cons x pre ih =>
    intro w hleaf htotal
    have hchild : (w.cursor.child x).LeafAt (pre ++ b :: c) s := leafAt_child hleaf
    obtain ⟨u, l', r', p, hnode⟩ := isNode_of_leafAt hchild (by simp)
    have hbit : walkBit (.node v l r q) total w x = .ok { w with cursor := w.cursor.child x } := by
      simp only [walkBit, walkBitTree, if_neg htotal, hnode]
    rw [walkBits, hbit]
    exact ih (w := { w with cursor := w.cursor.child x }) hchild htotal

section
variable {root : Tree} {total : Nat} {w : WalkState} {s : Byte} (hs : s ∈ root.symbols) (hroot : w.cursor = root)
include hs hroot

/-- From the root, part of a code emits nothing. -/
theorem walkBits_partOfCode {pre : Bits} (htotal : w.dcount ≠ total) (hpre : pre <+: codeOf (codeTable root) s)
    (hne : pre ≠ codeOf (codeTable root) s) : ∃ w', walkBits root total pre w = .ok w' ∧ w'.dcount = w.dcount := by
  cases root with
  | leaf u v q =>
    obtain rfl := List.mem_singleton.1 hs
    rw [codeOf_leaf] at hpre hne
    cases pre with
    | nil => exact ⟨w, rfl, rfl⟩
    | cons b pre =>
      obtain ⟨rfl, hnil⟩ := List.cons_prefix_cons.1 hpre
      rw [List.prefix_nil.1 hnil] at hne
      exact absurd rfl hne
  | node v l r q =>
    obtain ⟨suffix, hcode⟩ := hpre
    have hleaf := leafAt_codeOf hs
    rw [← hcode] at hleaf hne
    cases suffix with
    | nil => simp at hne
    | cons b c =>
      obtain ⟨t, hwalk, _⟩ := walkBits_toward_leaf pre (hroot ▸ hleaf) htotal
      exact ⟨_, hwalk, rfl⟩

/-- From the root of two leaves or more, the code of a symbol whose counter is spent is a mismatch. -/
theorem walkBits_spentCode {v : Nat} {l r : Tree} {q : Nat} (hnode : root = .node v l r q) (hspent : remOf w.rem s = 0) (bs : Bits) :
    walkBits root total (codeOf (codeTable root) s ++ bs) w = .error .treeReconstructionMismatch := by
  subst hnode
  have hleaf := leafAt_codeOf hs
  obtain ⟨b₀, c₀, hcons⟩ : ∃ b₀ c₀, codeOf (codeTable (.node v l r q)) s = b₀ :: c₀ :=
    List.exists_cons_of_length_pos (codeOf_codeTable_length_pos_iff.2 hs)
  by_cases hfull : w.dcount = total
  · rw [hcons, List.cons_append]
    exact walkBits_excess _ hfull b₀ _
  obtain ⟨pre, b, hcode⟩ : ∃ pre b, codeOf (codeTable (.node v l r q)) s = pre ++ [b] :=
    (List.eq_nil_or_concat' _).resolve_left (by simp [hcons])
  rw [hcode] at hleaf ⊢
  obtain ⟨t, hwalk, hlast⟩ := walkBits_toward_leaf pre (hroot ▸ hleaf) hfull
  obtain ⟨u, p, hchild⟩ := leafAt_nil (leafAt_child hlast)
  have hbit : walkBit (.node v l r q) total { w with cursor := t } b = .error .treeReconstructionMismatch := by
    simp only [walkBit, walkBitTree, if_neg hfull, hchild, if_pos hspent]
  rw [List.append_assoc, walkBits_append, hwalk]
  simp only [List.singleton_append, walkBits, hbit]

end

/-! ### The counters of the header (R54, R255) -/

theorem remOf_walkStart_of_notMem (root : Tree) {s : Byte} {es : List Entry} (h : s ∉ es.map Entry.sym) :
    remOf (walkStart root es).rem s = 0 := by
  induction es with
  | nil => rfl
  | cons e es ih =>
    rw [List.map_cons, List.mem_cons, not_or] at h
    obtain ⟨hne, h⟩ := h
    exact (if_neg (Ne.symm hne)).trans (ih h)

/-- The counters of all symbols start with T between them. -/
theorem sum_remOf_walkStart (root : Tree) {es : List Entry} (hnodup : (es.map Entry.sym).Nodup) :
    ∑ s, remOf (walkStart root es).rem s = totalCount es := by
  calc ∑ s, remOf (walkStart root es).rem s
      = ∑ s ∈ (es.map Entry.sym).toFinset, remOf (walkStart root es).rem s :=
        (Finset.sum_subset (Finset.subset_univ _) fun s _ hs => remOf_walkStart_of_notMem root (by simpa using hs)).symm
    _ = ((es.map Entry.sym).map fun s => remOf (walkStart root es).rem s).sum := List.sum_toFinset _ hnodup
    _ = totalCount es := by
      rw [List.map_map, totalCount]
      exact congrArg List.sum (List.map_congr_left fun e he => remOf_walkStart root hnodup he)

theorem length_eq_sum_count (data : List Byte) : data.length = ∑ s, data.count s := by
  simpa using sum_map_eq_sum_count data fun _ => 1

theorem remOf_foldl_remDec (data : List Byte) (s : Byte) : ∀ m, remOf (data.foldl remDec m) s = remOf m s - data.count s := by
  induction data with
  | nil => exact fun _ => rfl
  | cons u data ih =>
    intro m
    rw [List.foldl_cons, ih, remOf_remDec, List.count_cons, Nat.sub_sub, Nat.add_comm]
    simp only [beq_iff_eq]

section
variable {es : List Entry} {data : List Byte} (hsym : ∀ s ∈ data, s ∈ es.map Entry.sym)
  (hcount : ∀ e ∈ es, data.count e.sym ≤ e.freq.toNat) (hnodup : (es.map Entry.sym).Nodup)
include hsym hcount hnodup

theorem count_le_remOf_walkStart (root : Tree) (s : Byte) : data.count s ≤ remOf (walkStart root es).rem s := by
  by_cases hs : s ∈ data
  · obtain ⟨e, he, rfl⟩ := List.mem_map.1 (hsym s hs)
    exact (hcount e he).trans_eq (remOf_walkStart root hnodup he).symm
  · exact (List.count_eq_zero_of_not_mem hs).trans_le (Nat.zero_le _)

theorem length_le_totalCount : data.length ≤ totalCount es := by
  rw [length_eq_sum_count, ← sum_remOf_walkStart (buildTree es) hnodup]
  exact Finset.sum_le_sum fun s _ => count_le_remOf_walkStart hsym hcount hnodup _ s

end

/-- Settles O38: after the codes (`walkBits_header`) part of a code emits nothing more, which leaves the shortfall, and any bit after T symbols is
an excess bit. -/
theorem walkEmitsTheCodedSymbols : Obligations.WalkEmitsTheCodedSymbols := by
  intro es data hes hsym hcount
  have ⟨hpos, _⟩ := hes
  have hperm := buildTree_symbols_perm (List.ne_nil_of_length_pos hpos)
  have hdcount : ((walkStart (buildTree es) es).emit (buildTree es) data).dcount = data.length := by simp [WalkState.emit, walkStart]
  refine ⟨fun hshort => ?_, fun hfull => ⟨walk_header hes hsym hcount hfull, fun b bs => ?_⟩⟩
  · have hwalk := walkBits_header hes hsym hcount hshort.le
    refine ⟨walk_of_shortfall hwalk (hdcount.trans_lt hshort), fun e pre he _ hpre hne => ?_⟩
    obtain ⟨w, hpart, hw⟩ := walkBits_partOfCode (root := buildTree es) (total := totalCount es)
      (w := (walkStart (buildTree es) es).emit (buildTree es) data) (hperm.mem_iff.2 (List.mem_map_of_mem he)) rfl
      (hdcount.trans_lt hshort).ne hpre hne
    refine walk_of_shortfall (w := w) ?_ (by omega)
    rw [walkBits_append, hwalk]
    exact hpart
  · refine walk_of_mismatch ?_
    rw [walkBits_append, walkBits_header hes hsym hcount hfull.le]
    exact walkBits_excess _ (hdcount.trans hfull) b bs

/-- Settles O39: after the codes the counter of the symbol is spent, so its code is a mismatch for L ≥ 2; for L = 1 the T symbols are then
complete, and any bit is an excess bit. -/
theorem overCountIsAMismatch : Obligations.OverCountIsAMismatch := by
  intro es data e bs hes hsym hcount he hspent
  have ⟨hpos, _, hnodup, _⟩ := hes
  have hperm := buildTree_symbols_perm (List.ne_nil_of_length_pos hpos)
  have hmem : e.sym ∈ (buildTree es).symbols := hperm.mem_iff.2 (List.mem_map_of_mem he)
  refine walk_of_mismatch ?_
  rw [List.append_assoc, walkBits_append, walkBits_header hes hsym hcount (length_le_totalCount hsym hcount hnodup)]
  obtain ⟨d, rfl⟩ | ⟨v, l, r, q, hnode⟩ := eq_singleton_or_buildTree_node hpos
  · obtain rfl := List.mem_singleton.1 he
    have hfull : data.length = totalCount [e] := by
      rw [← List.count_eq_length.2 fun s hs => (List.mem_singleton.1 (hsym s hs)).symm, hspent]
      simp [totalCount]
    rw [buildTree_single, codeOf_leaf]
    exact walkBits_excess _ (by simp [WalkState.emit, walkStart, hfull]) false bs
  · refine walkBits_spentCode hmem rfl hnode ?_ bs
    rw [WalkState.emit, remOf_foldl_remDec, remOf_walkStart _ hnodup he, hspent, Nat.sub_self]

end Sys2Proof.Machine
end

section
/-! PROOFS. The decoder, walks that succeed (`45_decoder.md`): such a walk was over the codes of symbols in the header's counts (R255, R260), so a
missing payload byte is detected (R264). -/

namespace Sys2Proof.Machine

/-! ### A walk that succeeds (R255, R260) -/

/-- Everything one bit of the walk for L ≥ 2 can do: at a leaf emit its symbol, if its counter is not spent, and else descend. -/
theorem walkBit_node_ok {v : Nat} {l r : Tree} {q total : Nat} {w w' : WalkState} {b : Bool}
    (h : walkBit (.node v l r q) total w b = .ok w') : w.dcount ≠ total ∧
      ((∃ s u p, w.cursor.child b = .leaf s u p ∧ remOf w.rem s ≠ 0 ∧ w' = w.emit (.node v l r q) [s]) ∨
        ((∃ u x y p, w.cursor.child b = .node u x y p) ∧ w' = { w with cursor := w.cursor.child b })) := by
  rw [walkBit, walkBitTree] at h
  split_ifs at h with hfull
  refine ⟨hfull, ?_⟩
  split at h
  next s u p hchild =>
    split_ifs at h with hspent
    cases h
    exact .inl ⟨s, u, p, hchild, hspent, rfl⟩
  next u x y p hchild =>
    cases h
    exact .inr ⟨⟨u, x, y, p, hchild⟩, by rw [hchild]⟩

/-- `pre` leads from `root` down to the internal node `t`: the leaves below `t` are reached through `pre`. -/
def Tree.LeadsTo (root : Tree) (pre : Bits) (t : Tree) : Prop :=
  (∃ v l r q, t = .node v l r q) ∧ ∀ c s, t.LeafAt c s → root.LeafAt (pre ++ c) s

theorem leadsTo_root (v : Nat) (l r : Tree) (q : Nat) : (Tree.node v l r q).LeadsTo [] (.node v l r q) :=
  ⟨⟨v, l, r, q, rfl⟩, fun _ _ h => h⟩

theorem leafAt_of_leadsTo {root t : Tree} {pre c : Bits} {b : Bool} {s : Byte} (h : root.LeadsTo pre t) (hleaf : (t.child b).LeafAt c s) :
    root.LeafAt (pre ++ b :: c) s := by
  obtain ⟨⟨v, l, r, q, rfl⟩, hbelow⟩ := h
  exact hbelow _ s (.node hleaf)

theorem leadsTo_child {root t : Tree} {pre : Bits} {b : Bool} (h : root.LeadsTo pre t) (hnode : ∃ v l r q, t.child b = .node v l r q) :
    root.LeadsTo (pre ++ [b]) (t.child b) :=
  ⟨hnode, fun c s hleaf => by
    rw [List.append_assoc]
    exact leafAt_of_leadsTo h hleaf⟩

/-- An emission takes one off the counter of its symbol, so the counters allow it and what is emitted after it. -/
theorem count_cons_le_remOf {root : Tree} {w : WalkState} {s : Byte} {data : List Byte} (hrem : remOf w.rem s ≠ 0)
    (h : ∀ t, data.count t ≤ remOf (w.emit root [s]).rem t) (t : Byte) : (s :: data).count t ≤ remOf w.rem t := by
  have ht : data.count t ≤ remOf w.rem t - [s].count t := (h t).trans_eq (remOf_foldl_remDec [s] t w.rem)
  by_cases hst : s = t
  · subst hst
    rw [List.count_cons_self]
    rw [List.count_singleton_self] at ht
    omega
  · rw [List.count_cons_of_ne hst]
    omega

/-- For L ≥ 2, the bits read into a code and the bits of a walk that goes on from there to T symbols are the codes of the symbols it emits, as
often as their counters allow. -/
theorem codes_of_walkBits {v : Nat} {l r : Tree} {q total : Nat} (hdistinct : (Tree.node v l r q).symbols.Nodup) {w' : WalkState}
    (hfull : w'.dcount = total) (m : Bits) : ∀ {pre : Bits} {w : WalkState}, (Tree.node v l r q).LeadsTo pre w.cursor →
    (pre = [] ∧ w.cursor = .node v l r q) ∨ w.dcount ≠ total → walkBits (.node v l r q) total m w = .ok w' →
    ∃ data, pre ++ m = symbolBits (codeTable (.node v l r q)) data ∧ w' = w.emit (.node v l r q) data ∧
      ∀ t, data.count t ≤ remOf w.rem t := by
  induction m with
  | nil =>
    intro pre w _ hstart h
    cases h
    obtain ⟨rfl, hroot⟩ := hstart.resolve_right (not_not_intro hfull)
    exact ⟨[], rfl, by simp [WalkState.emit, ← hroot], fun _ => Nat.zero_le _⟩
  | cons b m ih =>
    intro pre w hpre _ h
    rw [walkBits] at h
    cases hb : walkBit (.node v l r q) total w b with
    | error e => rw [hb] at h; cases h
    | ok w₁ =>
      rw [hb] at h
      obtain ⟨hopen, ⟨s, u, p, hchild, hrem, rfl⟩ | ⟨hchild, rfl⟩⟩ := walkBit_node_ok hb
      · have hleaf : (Tree.node v l r q).LeafAt (pre ++ [b]) s := leafAt_of_leadsTo hpre (hchild ▸ .leaf s u p)
        have hcode : codeOf (codeTable (.node v l r q)) s = pre ++ [b] :=
          codeOf_eq_of_mem (by rwa [codeTable_fst]) (x := (s, pre ++ [b])) (mem_codeTable_node.2 hleaf)
        obtain ⟨data, hm, rfl, hcount⟩ := ih (leadsTo_root v l r q) (.inl ⟨rfl, rfl⟩) h
        refine ⟨s :: data, ?_, emit_cons _ w s data, count_cons_le_remOf hrem hcount⟩
        rw [symbolBits, List.flatMap_cons, hcode, List.append_cons]
        exact congrArg (pre ++ [b] ++ ·) hm
      · obtain ⟨data, hm, rfl, hcount⟩ := ih (w := { w with cursor := w.cursor.child b }) (leadsTo_child hpre hchild) (.inr hopen) h
        exact ⟨data, by rw [← hm, ← List.append_cons], rfl, hcount⟩

/-- For L = 1, what a walk that raises nothing was over and has emitted. -/
theorem zeros_of_walkBits_single {s : Byte} {v q total : Nat} {m : Bits} {w w' : WalkState} (hroot : w.cursor = .leaf s v q)
    (hle : w.dcount ≤ total) (h : walkBits (.leaf s v q) total m w = .ok w') :
    w.dcount + m.length ≤ total ∧ m = List.replicate m.length false ∧ w' = w.emit (.leaf s v q) (List.replicate m.length s) := by
  have hgood : ¬ (total < w.dcount + m.length ∨ true ∈ m) := fun hbad => by
    rw [walkBits_single_mismatch m hle hbad] at h
    cases h
  obtain ⟨hfit, hzeros⟩ := not_or.1 hgood
  have hwalk := walkBits_single_zeros m.length hroot (Nat.not_lt.1 hfit)
  rw [← eq_replicate_false hzeros, h] at hwalk
  exact ⟨Nat.not_lt.1 hfit, eq_replicate_false hzeros, Except.ok.inj hwalk⟩

/-- A walk that succeeds was over the codes of symbols as often as the header counts each, and has emitted them. -/
theorem codes_of_walk {es : List Entry} (hes : BuildContract es) {m : Bits} {w : WalkState}
    (h : walk (buildTree es) es m (totalCount es) = .ok w) : ∃ data, m = symbolBits (codeTable (buildTree es)) data ∧
      w = (walkStart (buildTree es) es).emit (buildTree es) data ∧ ∀ s, data.count s = remOf (walkStart (buildTree es) es).rem s := by
  obtain ⟨hpos, _, hnodup, _⟩ := hes
  have hperm := buildTree_symbols_perm (List.ne_nil_of_length_pos hpos)
  obtain ⟨hwalk, hfull⟩ := walkBits_of_walk_ok h
  obtain ⟨data, hm, hw, hcount⟩ : ∃ data, m = symbolBits (codeTable (buildTree es)) data ∧
      w = (walkStart (buildTree es) es).emit (buildTree es) data ∧ ∀ s, data.count s ≤ remOf (walkStart (buildTree es) es).rem s := by
    obtain ⟨e, rfl⟩ | ⟨v, l, r, q, hnode⟩ := eq_singleton_or_buildTree_node hpos
    · obtain ⟨hle, hm, hw⟩ := zeros_of_walkBits_single (v := e.freq.toNat) (q := 0) rfl (Nat.zero_le _) hwalk
      refine ⟨List.replicate m.length e.sym, ?_, hw, count_le_remOf_walkStart ?_ ?_ hnodup _⟩
      · conv_lhs => rw [hm]
        rw [symbolBits, List.flatMap_replicate, buildTree_single, codeOf_leaf, List.flatten_replicate_singleton]
      · exact fun s hs => List.mem_singleton.2 (List.eq_of_mem_replicate hs)
      · simpa [walkStart, totalCount] using hle
    · rw [hnode] at hwalk hperm ⊢
      exact codes_of_walkBits (hperm.nodup_iff.2 hnodup) hfull m (leadsTo_root v l r q) (.inl ⟨rfl, rfl⟩) hwalk
  have hlength : data.length = totalCount es := by simpa [hw, WalkState.emit, walkStart] using hfull
  refine ⟨data, hm, hw, fun s => ?_⟩
  refine (Finset.sum_eq_sum_iff_of_le fun s _ => hcount s).1 ?_ s (Finset.mem_univ s)
  rw [← length_eq_sum_count, sum_remOf_walkStart _ hnodup, hlength]

/-- Settles O36: the walk emitted symbols in the header's counts (`codes_of_walk`) and came back to the root, so what is left of each counter is
zero. -/
theorem successfulWalkMatchesTheHeader : Obligations.SuccessfulWalkMatchesTheHeader := by
  intro es m w hes h
  obtain ⟨hdcount, hlength⟩ := walk_ok_length h
  obtain ⟨data, _, rfl, hcount⟩ := codes_of_walk hes h
  obtain ⟨_, _, hnodup, _⟩ := hes
  refine ⟨rfl, hdcount, hlength, fun e he => ⟨?_, ?_⟩⟩
  · exact (hcount e.sym).trans (remOf_walkStart _ hnodup he)
  · rw [WalkState.emit, remOf_foldl_remDec, hcount, Nat.sub_self]

/-! ### A payload byte is missing (R264) -/

/-- The counters of the header of source bytes start with the counts of the bytes. -/
theorem remOf_walkStart_encodeEntries {data : List Byte} (hlen : data.length < 2 ^ 32) (root : Tree) (s : Byte) :
    remOf (walkStart root (encodeEntries data)).rem s = data.count s := by
  have hnodup : ((encodeEntries data).map Entry.sym).Nodup := nodup_map_sym_entryList _
  by_cases hs : s ∈ (encodeEntries data).map Entry.sym
  · obtain ⟨e, he, rfl⟩ := List.mem_map.1 hs
    rw [remOf_walkStart root hnodup he, encodeEntries_freq hlen he]
  · rw [remOf_walkStart_of_notMem root hs, List.count_eq_zero_of_not_mem fun h => hs ((mem_map_sym_encodeEntries hlen s).2 h)]

/-- Against the header of source bytes, a walk succeeds only over as many bits as the source bytes are coded in. -/
theorem length_of_walk_encodeEntries {data : List Byte} (hne : data ≠ []) (hlen : data.length < 2 ^ 32) {m : Bits} {w : WalkState}
    (h : walk (encodeTree data) (encodeEntries data) m (totalCount (encodeEntries data)) = .ok w) : m.length = encodeBits data := by
  obtain ⟨data', rfl, _, hcount⟩ := codes_of_walk (buildContract_encodeEntries hlen hne) h
  have hperm : data'.Perm data := List.perm_iff_count.2 fun s => by rw [hcount, remOf_walkStart_encodeEntries hlen]
  exact (hperm.flatMap_right _).length_eq.trans (symbolBits_length hlen)

/-- Settles O42: without the byte the header and the trailer are unchanged, so the container parses, with 8 meaningful bits fewer than the walk
would need to succeed (`length_of_walk_encodeEntries`). -/
theorem removedPayloadByteIsDetected : Obligations.RemovedPayloadByteIsDetected := by
  intro outSize j data hne hlen hj hj'
  obtain ⟨payload, r, f, hparts, hcount, hr, _⟩ := encodeContainer_parts hlen
  obtain ⟨i, rfl⟩ := Nat.exists_eq_add_of_le hj
  have hi : i < payload.length := by omega
  have hremoved : (encodeContainer data).eraseIdx (4 + 5 * (encodeEntries data).length + i) =
      headerBytes (encodeEntries data) ++ payload.eraseIdx i ++ [r, f] := by
    rw [hparts, List.append_assoc, List.eraseIdx_append_of_length_le (by simp), headerBytes_length, Nat.add_sub_cancel_left,
      List.eraseIdx_append_of_lt_length hi, List.append_assoc]
  have hr8 : r.toNat ≤ 8 := by omega
  have hbits : (meaningfulBits ⟨encodeEntries data, payload.eraseIdx i, r.toNat, f⟩).length ≠ encodeBits data := by
    obtain ⟨hlength, _⟩ := meaningfulBitsArePayloadThenResidual ⟨encodeEntries data, payload.eraseIdx i, r.toNat, f⟩ hr8
    simp only [List.length_eraseIdx_of_lt hi] at hlength
    omega
  rw [hremoved, decodeContainer, parseContainer_parts (buildContract_encodeEntries hlen hne) (payload.eraseIdx i) hr8 f]
  simp only [totalCount_encodeEntries hlen]
  by_cases hfit : data.length ≤ outSize
  · rw [if_neg (Nat.not_lt.2 hfit)]
    split
    next e hwalk => exact ⟨e, rfl, fun _ => walk_error hwalk⟩
    next w hwalk => exact absurd (length_of_walk_encodeEntries hne hlen (by rwa [totalCount_encodeEntries hlen])) hbits
  · exact ⟨.outputOverflow, if_pos (Nat.not_le.1 hfit), fun h => absurd h hfit⟩

end Sys2Proof.Machine
end

section
/-! PROOFS. The errors (`60_exceptions.md`): which one a command reports, the first that its rules reach (R310), and what every error
leaves (R311). -/

namespace Sys2Proof.Machine

/-! ### The code a command reports (R301, R310) -/

/-- `ERRCODE` after a command with that output or error: 0 where there is no error (R27, R301). -/
def reportedCode : Except CommandError Output → BitVec 4
  | .error e => e.code
  | .ok _ => 0

/-- Code 0 is no error's. -/
theorem code_ne_zero (e : CommandError) : e.code ≠ 0 := fun h => by
  have hrange := code_range e
  simp [h] at hrange

/-- `ERR` is 1 exactly when `ERRCODE` names an error. -/
theorem completeWith_err (s : State) (g : Engine) (n : Nat) (r : Except CommandError Output) :
    (s.completeWith g n r).err = decide ((s.completeWith g n r).errCode ≠ 0) := by
  cases r with
  | error e => exact (decide_eq_true (code_ne_zero e)).symm
  | ok o => rfl

theorem completeWith_errCode (s : State) (g : Engine) (n : Nat) (r : Except CommandError Output) :
    (s.completeWith g n r).errCode = reportedCode r := by
  cases r <;> rfl

/-- Every command other than `NOP` ends, and reports the error of `commandOutput` or none. -/
theorem exec_reports {i : Instr} (hi : i ≠ .nop) (s : State) : ∃ t, exec i s = .next t ∧ t.phase = .idle ∧ t.done = true ∧
    t.err = decide (t.errCode ≠ 0) ∧ t.errCode = reportedCode (commandOutput (.ok i) s) := by
  obtain ⟨g, n, ht⟩ := exec_completeWith hi s
  exact ⟨_, ht, completeWith_phase .., completeWith_done .., completeWith_err .., completeWith_errCode ..⟩

/-! ### `ENCODE` (R302, R307, R308) -/

/-- Settles O15: `ENCODE` reports the code of `encodeOutput` (`exec_reports`), whose branches are the four cases in their order. -/
theorem encodeReportsTheFirstError : Obligations.EncodeReportsTheFirstError := by
  intro s
  obtain ⟨t, ht, hphase, hdone, herr, hcode⟩ := exec_reports (i := .encode) nofun s
  have hreports {r : Except CommandError Output} (ho : encodeOutput s = r) : t.errCode = reportedCode r :=
    hcode.trans (congrArg reportedCode ho)
  refine ⟨t, ht, hphase, hdone, herr, fun h0 => ?_, fun h0 hrange => ?_, fun h0 hrange hfit => ?_, fun h0 hrange hfit => ?_⟩
  · exact hreports (if_pos h0)
  · exact hreports ((if_neg h0).trans (if_pos hrange))
  · exact hreports ((if_neg h0).trans ((if_neg (Nat.not_lt.2 hrange)).trans (if_pos hfit)))
  · exact hreports ((if_neg h0).trans ((if_neg (Nat.not_lt.2 hrange)).trans (if_neg (Nat.not_lt.2 hfit))))

/-! ### `DECODE` (R303 to R308) -/

theorem decodeContainer_of_parse_error {outSize : Nat} {c : List Byte} {e : CommandError} (hparse : parseContainer c = .error e) :
    decodeContainer outSize c = .error e := by
  rw [decodeContainer, hparse]

theorem decodeContainer_of_overflow {outSize : Nat} {c : List Byte} {k : Container} (hparse : parseContainer c = .ok k)
    (hfit : outSize < totalCount k.entries) : decodeContainer outSize c = .error .outputOverflow := by
  rw [decodeContainer, hparse]
  exact if_pos hfit

theorem decodeContainer_of_walk_error {outSize : Nat} {c : List Byte} {k : Container} {e : CommandError}
    (hparse : parseContainer c = .ok k) (hfit : totalCount k.entries ≤ outSize)
    (hwalk : walk (buildTree k.entries) k.entries (meaningfulBits k) (totalCount k.entries) = .error e) :
    decodeContainer outSize c = .error e := by
  rw [decodeContainer, hparse]
  exact (if_neg (Nat.not_lt.2 hfit)).trans (by rw [hwalk])

theorem decodeOutput_eq_error {s : State} {e : CommandError} (hrange : s.inLen.toNat ≤ s.inSize.toNat)
    (herror : decodeContainer s.outSize.toNat (inSnapshot s s.inLen.toNat) = .error e) : decodeOutput s = .error e := by
  rw [decodeOutput, if_neg (Nat.not_lt.2 hrange), herror]
  rfl

/-- Settles O17: `DECODE` reports the code of `decodeOutput` (`exec_reports`), which is the range check's error, or that of the first stage of
`decodeContainer` that has one. -/
theorem decodeReportsTheFirstError : Obligations.DecodeReportsTheFirstError := by
  intro s
  obtain ⟨t, ht, hphase, hdone, herr, hcode⟩ := exec_reports (i := .decode) nofun s
  have hreports {r : Except CommandError Output} (ho : decodeOutput s = r) : t.errCode = reportedCode r :=
    hcode.trans (congrArg reportedCode ho)
  refine ⟨t, ht, hphase, hdone, herr, fun hrange => ?_, fun hrange e hparse => ?_, fun hrange k hparse =>
    ⟨fun hfit => ?_, fun hfit e hwalk => ?_, fun hfit w hwalk => ?_⟩⟩
  · exact hreports (if_pos hrange)
  · exact hreports (decodeOutput_eq_error hrange (decodeContainer_of_parse_error hparse))
  · exact hreports (decodeOutput_eq_error hrange (decodeContainer_of_overflow hparse hfit))
  · exact hreports (decodeOutput_eq_error hrange (decodeContainer_of_walk_error hparse hfit hwalk))
  · exact hreports (decodeOutput_eq_ok hrange (decodeContainer_eq_ok hparse hfit hwalk))

/-! ### What every error leaves (R311) -/

theorem execIllegal_completeWith (s : State) : ∃ g n, execIllegal s = .next (s.completeWith g n (.error .illegalCommand)) :=
  ⟨_, _, rfl⟩

/-- Settles O19: each of these ends with an output, which leaves `ERR` 0, or with an error, which went through the one error entry right after
the steps of acceptance had cleared the results. -/
theorem errorEntryLeavesThisState : Obligations.ErrorEntryLeavesThisState := by
  intro i s t hends herr
  obtain ⟨g, n, r, rfl⟩ : ∃ g n r, t = s.completeWith g n r := by
    rcases hends with ⟨hi, ht⟩ | ht
    · obtain ⟨g, n, hexec⟩ := exec_completeWith hi s
      cases hexec.symm.trans ht
      exact ⟨g, n, _, rfl⟩
    · obtain ⟨g, n, hexec⟩ := execIllegal_completeWith s
      cases hexec.symm.trans ht
      exact ⟨g, n, _, rfl⟩
  cases r with
  | error e => exact ⟨rfl, rfl, ⟨e, rfl⟩, rfl, rfl, rfl, rfl, fun _ => rfl, rfl, rfl, rfl⟩
  | ok o => cases herr

end Sys2Proof.Machine
end

section
/-! PROOFS. Reset and hazards (`70_reset_and_hazards.md`): what reset leaves (R340, R341), that a block held in reset stays there, and that no
status of an earlier command is read while one runs (R351). -/

namespace Sys2Proof.Machine

/-! ### What keeps a block reset while `rst` is high (R340) -/

/-- A state with `rst` low, where only the running command matters. -/
theorem resetInv_of_low {s : State} (hr : s.rst = false) (hcmd : s.phase = .busy → decodeWord s.command ≠ .ok .nop) : ResetInv s :=
  ⟨fun h => absurd (hr ▸ h) Bool.false_ne_true, hcmd⟩

/-- No command runs while `rst` is high. -/
theorem rst_low_of_busy {s : State} (h : ResetInv s) (hb : s.phase = .busy) : s.rst = false := by
  obtain ⟨hreset, _⟩ := h
  refine Bool.eq_false_iff.2 fun hr => ?_
  obtain ⟨hidle, _⟩ := hreset hr
  exact nomatch hidle.symm.trans hb

/-- A command has completed with `rst` low, as it was when the command ran. -/
theorem resetInv_completed {s t : State} (h : ResetInv s) (hb : s.phase = .busy) (hrst : t.rst = s.rst) (ht : t.phase = .idle) : ResetInv t :=
  resetInv_of_low (hrst.trans (rst_low_of_busy h hb)) fun hbusy => nomatch ht.symm.trans hbusy

theorem resetInv_resetBlock (s : State) (level : Bool) : ResetInv { s.resetBlock with rst := level } :=
  ⟨fun _ => ⟨rfl, rfl, rfl, rfl, rfl, rfl, rfl, rfl, rfl, rfl, rfl, rfl⟩, nofun⟩

theorem stepInvariant_reset : StepInvariant ResetInv where
  own _ _ _ _ _ h := h
  ctrl _ _ h hr := resetInv_of_low hr h.2
  acknowledge _ h hr := resetInv_of_low hr h.2
  inLen _ _ h hr := resetInv_of_low hr h.2
  accept _ _ _ hr hv := resetInv_of_low hr fun _ => hv
  writeIn _ _ _ h hr _ := resetInv_of_low hr h.2
  writeOut _ _ _ h hr _ := resetInv_of_low hr h.2
  reset s level _ := resetInv_resetBlock s level
  raised _ _ _ h hb := resetInv_completed h hb rfl rfl
  encoded _ _ h hb _ _ := resetInv_completed h hb rfl rfl
  decoded _ _ _ _ _ h hb _ := resetInv_completed h hb rfl rfl

/-- Settles O58: what reaches a register or a buffer does so with `rst` low, an accepted word is not `NOP`, and a completion is of a command
that ran, which none does while `rst` is high (`rst_low_of_busy`). -/
theorem stepKeepsResetInv : Obligations.StepKeepsResetInv := fun _ _ h ht => stepInvariant_reset.of_step h ht

/-! ### No stale status (R351) -/

theorem statusWord_of_busy {s : State} (h : StatusInv s) (hb : s.phase = .busy) : statusWord s = 0x00000001 := by
  obtain ⟨hbusy, hcode, _⟩ := h
  obtain ⟨hdone, herr, _⟩ := hbusy hb
  simp [statusWord, hb, hdone, herr, hcode herr]

/-- Settles O9, from the step that accepts a word (`step_accepts`) and, while the command runs, the status invariant. -/
theorem noStaleStatus : Obligations.NoStaleStatus :=
  ⟨fun _ v _ hp hr hh hv => ⟨_, step_accepts hp hr hh hv, statusWord_accept v _⟩, fun _ => statusWord_of_busy⟩

/-! ### What reset leaves (R340, R341) -/

/-- A size that is picked is at least 1 (R9, R10). -/
theorem one_le_size (pick : Word) : 1 ≤ (if pick = 0 then 1 else pick).toNat := by
  split_ifs with h
  · decide
  · exact Nat.one_le_iff_ne_zero.2 fun h0 => h (BitVec.eq_of_toNat_eq h0)

/-- Settles O53: each value is the one `State.reset` lists, and the parameters are sizes that were picked (`one_le_size`). -/
theorem resetValues : Obligations.ResetValues :=
  ⟨rfl, rfl, rfl, rfl, rfl, rfl, rfl, rfl, rfl, rfl, rfl, rfl, rfl, rfl, rfl, fun a => ⟨read_nil a, read_nil a⟩,
    one_le_size Config.inSizePick, one_le_size Config.outSizePick⟩

/-- After a reset the registers read as in `State.reset`, but for the two that show the parameters, which are kept. -/
theorem readReg_resetBlock (s : State) (level : Bool) {r : Reg} (hi : r ≠ .inSizeR) (ho : r ≠ .outSizeR) :
    readReg { s.resetBlock with rst := level } r = readReg State.reset r := by
  cases r with
  | inSizeR => exact absurd rfl hi
  | outSizeR => exact absurd rfl ho
  | _ => rfl

/-- The line rising, staying high or falling is a reset. -/
theorem hostOp_rst_resets {s : State} {level : Bool} (h : level = true ∨ s.rst = true) :
    hostOp (.rst level) s = .next { s.resetBlock with rst := level } :=
  congrArg Host.Outcome.next (if_pos (Bool.or_eq_true .. ▸ h))

/-- While `rst` is high an admitted write leaves no trace (DEDUCED, log 10). -/
theorem hostOp_write_of_rst {s : State} {space : Space} {width offset : Nat} {v : Word} (hr : s.rst = true)
    (hadm : HostOp.admitted s (.write space width offset v) = true) : hostOp (.write space width offset v) s = .next s := by
  cases space with
  | reg =>
    obtain ⟨r, hreg⟩ := Option.isSome_iff_exists.1 hadm
    simp only [hostOp, hostWrite, hreg, hr, if_true]
  | _ =>
    simp only [HostOp.admitted, Bool.and_eq_true, Bool.not_eq_true'] at hadm
    obtain ⟨hbyte, hidle⟩ := hadm
    simp only [hostOp, hostWrite, hbyte, hidle, hr, if_true, Bool.false_eq_true, if_false]

/-- Settles O54: the line taking such a level is a reset (`hostOp_rst_resets`), whatever the state, and a write while it is high is dropped
(`hostOp_write_of_rst`; a buffer write is admitted in the idle phase alone, so that hypothesis is not needed). -/
theorem rstResetsTheBlock : Obligations.RstResetsTheBlock :=
  ⟨fun s level h => ⟨_, hostOp_rst_resets h, rfl, fun _ => readReg_resetBlock s level, rfl, rfl, rfl, rfl,
    fun a => ⟨read_nil a, read_nil a⟩⟩, fun _ _ _ _ _ hr _ => hostOp_write_of_rst hr⟩

/-- Settles O59: the buffers list nothing, no error is pending, the results are clear, and `State.reset` has `rst` low and no command running. -/
theorem invariantsHoldAtReset : Obligations.InvariantsHoldAtReset :=
  ⟨⟨wf_nil, within_nil _, wf_nil, within_nil _⟩, statusInv_of_no_error rfl rfl nofun, resultsInv_of_clear rfl rfl rfl rfl,
    resetInv_of_low rfl nofun⟩

end Sys2Proof.Machine
end
